-- ==== Sys2Proof/Word.lean ====
section
/-! DEFINITION. The value types of the block: bits, bytes, the command word, and the exact numbers that
stand for `Cplx` (00_scope.md R9). -/

namespace Sys2Proof

/-- `Bit` of R9: 0 is `false`, 1 is `true`. -/
abbrev Bit := Bool

/-- `Byte` of R9. -/
abbrev Byte := BitVec 8

/-- The 16-bit command word, format CMD16 (30_encoding.md R45). -/
abbrev CmdWord := BitVec 16

/-- A rational combination of the sixteen cosines `cos (2 pi k / 64)`, k = 0 .. 15: `coeff[k]` is the
coefficient of the k-th. These are the reals that the twiddle factors of 46_ifft_64.md R123 span. -/
structure Trig where
  coeff : Vector Rat 16
deriving DecidableEq, Repr, Inhabited

/-- An exact real `one + sqrt 5 * r5 + sqrt 21 * r21 + the sum over i of g_i * given[i]` (20_memory.md R43).
The `g_0, g_1, ...` are real numbers that the host brings in its operands, any reals whatever: the machine
computes with them by name, and what they are is said where the value is read (`Reading` of Safety.lean; entry 7).
The first three parts hold what the machine itself makes: `sqrt 10 = sqrt 2 * sqrt 5`,
`sqrt 42 = sqrt 2 * sqrt 21`, and `sqrt 2` is twice the cosine of index 8. -/
structure ExactReal where
  one   : Trig
  r5    : Trig
  r21   : Trig
  given : List Trig
deriving DecidableEq, Repr, Inhabited

/-- `Cplx` of R9: `re + j*im`, both parts exact reals. -/
structure Cplx where
  re : ExactReal
  im : ExactReal
deriving DecidableEq, Repr, Inhabited

end Sys2Proof
end

