-- ==== Sys2Proof/Config.lean ====
section
/-! DEFINITION. What an implementation fixes and the spec leaves open: the one parameter `QUANT`
(00_scope.md R8; 92_eei_decisions.md D10). -/

namespace Sys2Proof

/-- The implementation's own choice of `QUANT` on one real. It has no body: nothing can be proved of its
values (entry 6). Its values are not bound to the reals that its argument names: a value that has no other
name is one of the `g_i` (entry 7). -/
opaque Config.quantChoice : ExactReal → ExactReal

/-- `QUANT` on one real. D10 allows two assumptions about it, that it is a function of its argument alone
and that it is idempotent. Where `Config.quantChoice` is idempotent this is `Config.quantChoice`; it is
idempotent whatever that constant is, so it ranges over the idempotent functions and no others (entry 6). -/
def Config.quant (x : ExactReal) : ExactReal :=
  if Config.quantChoice (Config.quantChoice x) = Config.quantChoice x then Config.quantChoice x else x

end Sys2Proof
end

