-- ==== Sys2Proof/Syntax.lean ====
section
/-! DEFINITION. The 21 operations of 30_encoding.md R46, one constructor each, with their coded fields as
names (R48). -/

namespace Sys2Proof

/-- The coding rates of R48: code 0, 1, 2. -/
inductive CodingRate where
  | half
  | twoThirds
  | threeQuarters
deriving DecidableEq, Repr, Inhabited

/-- The modulations of R48: code 0, 1, 2, 3. -/
inductive Modulation where
  | bpsk
  | qpsk
  | qam16
  | qam64
deriving DecidableEq, Repr, Inhabited

/-- The field types of R48: code 0, 1, 2, 3. -/
inductive FieldType where
  | stf
  | ltf
  | signal
  | data
deriving DecidableEq, Repr, Inhabited

/-- The pilot polarity of R48: bit 0 is +1, bit 1 is -1. -/
inductive Polarity where
  | plus
  | minus
deriving DecidableEq, Repr, Inhabited

/-- The nine units of 00_scope.md R2, by their short names. -/
inductive BlockUnit where
  | scr
  | enc
  | pun
  | ilv
  | map
  | plt
  | ift
  | cpg
  | crc
deriving DecidableEq, Repr, Inhabited

/-- The operations. Vector operands are not part of the command word: they travel in `din` (R32). -/
inductive Instr where
  /-- SCR.SEED, R62. -/
  | scrSeed (seed : BitVec 7)
  /-- SCR.BIT, R63. -/
  | scrBit (b : Bit)
  /-- SCR.GEN, R64. -/
  | scrGen
  /-- ENC.CLR, R72. -/
  | encClr
  /-- ENC.BIT, R73. -/
  | encBit (b : Bit)
  /-- PUN.START, R80; `none` is rate code 3, which decodes and is not a rate (R51). -/
  | punStart (rate : Option CodingRate)
  /-- PUN.BIT, R81. -/
  | punBit (b : Bit)
  /-- ILV.CFG, R89. -/
  | ilvCfg (mod : Modulation)
  /-- ILV.BIT, R90. -/
  | ilvBit (b : Bit)
  /-- ILV.END, R91. -/
  | ilvEnd
  /-- MAP.CFG, R101. -/
  | mapCfg (mod : Modulation)
  /-- MAP.BIT, R102. -/
  | mapBit (b : Bit)
  /-- MAP.END, R103. -/
  | mapEnd
  /-- PLT.START, R111. -/
  | pltStart
  /-- PLT.INS, R112. -/
  | pltIns
  /-- PLT.INSP, R113. -/
  | pltInsp (pol : Polarity)
  /-- IFT.XFORM, R120. -/
  | iftXform
  /-- CPG.EXT, R127. -/
  | cpgExt (field : FieldType)
  /-- CRC.INIT, R137. -/
  | crcInit
  /-- CRC.BYTE, R138. -/
  | crcByte (byte : Byte)
  /-- CRC.FIN, R139. -/
  | crcFin
deriving DecidableEq, Repr

/-- The unit an operation addresses (R46). -/
def Instr.unit : Instr → BlockUnit
  | .scrSeed _ | .scrBit _ | .scrGen => .scr
  | .encClr | .encBit _ => .enc
  | .punStart _ | .punBit _ => .pun
  | .ilvCfg _ | .ilvBit _ | .ilvEnd => .ilv
  | .mapCfg _ | .mapBit _ | .mapEnd => .map
  | .pltStart | .pltIns | .pltInsp _ => .plt
  | .iftXform => .ift
  | .cpgExt _ => .cpg
  | .crcInit | .crcByte _ | .crcFin => .crc

end Sys2Proof
end

