-- ==== Sys2Proof/WellFormed.lean ====
section
/-! DEFINITION. Which operations are well formed. Every field of `Instr` has exactly the values that its
encoding admits, so an operation by itself always is; what can be wrong is the data operand given with it,
whose length the operation fixes (20_memory.md R32). -/

namespace Sys2Proof

/-- The length of `din` that an operation takes (R32's table). All `din` elements are `Cplx`. -/
def Instr.dinLength : Instr → Nat
  | .pltIns | .pltInsp _ => 48
  | .iftXform => 52
  | .cpgExt _ => 64
  | .scrSeed _ | .scrBit _ | .scrGen | .encClr | .encBit _ | .punStart _ | .punBit _ | .ilvCfg _
  | .ilvBit _ | .ilvEnd | .mapCfg _ | .mapBit _ | .mapEnd | .pltStart | .crcInit | .crcByte _ | .crcFin => 0

/-- An operation together with its data operand is well formed: the operand has the operation's length
(R32; a request with another length cannot be formed, 93_implementation_defined.md U9). -/
def Instr.wellFormedWith (i : Instr) (din : List Cplx) : Bool :=
  din.length == i.dinLength

end Sys2Proof
end

