-- ==== Sys2Proof/Decode.lean ====
section
/-! DEFINITION. Decoding of the 16-bit command word and its encoding (30_encoding.md R45 to R51). -/

namespace Sys2Proof

/-- The three ways a command word is illegal (R50). The response does not tell them apart
(60_exceptions.md R161). -/
inductive IllegalWord where
  /-- `unit` 0 or 10 to 15. -/
  | reservedUnit
  /-- A defined unit with an `op` above its last. -/
  | reservedOp
  /-- A defined operation with a 1 in an unused `imm` bit. -/
  | unusedImmBit
deriving DecidableEq, Repr

/-- The `unit` field, bits 15:12 (R45). -/
def unitField (w : CmdWord) : BitVec 4 := w.extractLsb' 12 4

/-- The `op` field, bits 11:8 (R45). -/
def opField (w : CmdWord) : BitVec 4 := w.extractLsb' 8 4

/-- The `imm` field, bits 7:0 (R45). -/
def immField (w : CmdWord) : BitVec 8 := w.extractLsb' 0 8

/-- A rate code of R48; code 3 is not a rate. -/
def CodingRate.ofCode (c : BitVec 2) : Option CodingRate :=
  match c.toNat with
  | 0 => some .half
  | 1 => some .twoThirds
  | 2 => some .threeQuarters
  | _ => none

/-- The rate code of `PUN.START`, 3 for none (R48, R51). -/
def CodingRate.toCode : Option CodingRate → BitVec 2
  | some .half => 0
  | some .twoThirds => 1
  | some .threeQuarters => 2
  | none => 3

/-- A modulation code of R48. -/
def Modulation.ofCode (c : BitVec 2) : Modulation :=
  match c.toNat with
  | 0 => .bpsk
  | 1 => .qpsk
  | 2 => .qam16
  | _ => .qam64

/-- The modulation code of R48. -/
def Modulation.toCode : Modulation → BitVec 2
  | .bpsk => 0
  | .qpsk => 1
  | .qam16 => 2
  | .qam64 => 3

/-- A field type code of R48. -/
def FieldType.ofCode (c : BitVec 2) : FieldType :=
  match c.toNat with
  | 0 => .stf
  | 1 => .ltf
  | 2 => .signal
  | _ => .data

/-- The field type code of R48. -/
def FieldType.toCode : FieldType → BitVec 2
  | .stf => 0
  | .ltf => 1
  | .signal => 2
  | .data => 3

/-- A polarity bit of R48: 0 means +1, 1 means -1. -/
def Polarity.ofBit : Bit → Polarity
  | false => .plus
  | true => .minus

/-- The polarity bit of R48. -/
def Polarity.toBit : Polarity → Bit
  | .plus => false
  | .minus => true

/-- Accept an operation whose unused `imm` bits, those of `unused`, are all 0 (R49). -/
def requireZero (imm unused : BitVec 8) (i : Instr) : Except IllegalWord Instr :=
  if imm &&& unused = 0 then .ok i else .error .unusedImmBit

/-- Decoding (R49): the row of R46 with the word's `unit` and `op`, and the unused `imm` bits 0. It depends
on the word alone. -/
def decode (w : CmdWord) : Except IllegalWord Instr :=
  let imm := immField w
  match (unitField w).toNat, (opField w).toNat with
  | 1, 0 => requireZero imm 0x80 (.scrSeed (imm.setWidth 7))
  | 1, 1 => requireZero imm 0xFE (.scrBit (imm.getLsbD 0))
  | 1, 2 => requireZero imm 0xFF .scrGen
  | 1, _ => .error .reservedOp
  | 2, 0 => requireZero imm 0xFF .encClr
  | 2, 1 => requireZero imm 0xFE (.encBit (imm.getLsbD 0))
  | 2, _ => .error .reservedOp
  | 3, 0 => requireZero imm 0xFC (.punStart (CodingRate.ofCode (imm.setWidth 2)))
  | 3, 1 => requireZero imm 0xFE (.punBit (imm.getLsbD 0))
  | 3, _ => .error .reservedOp
  | 4, 0 => requireZero imm 0xFC (.ilvCfg (Modulation.ofCode (imm.setWidth 2)))
  | 4, 1 => requireZero imm 0xFE (.ilvBit (imm.getLsbD 0))
  | 4, 2 => requireZero imm 0xFF .ilvEnd
  | 4, _ => .error .reservedOp
  | 5, 0 => requireZero imm 0xFC (.mapCfg (Modulation.ofCode (imm.setWidth 2)))
  | 5, 1 => requireZero imm 0xFE (.mapBit (imm.getLsbD 0))
  | 5, 2 => requireZero imm 0xFF .mapEnd
  | 5, _ => .error .reservedOp
  | 6, 0 => requireZero imm 0xFF .pltStart
  | 6, 1 => requireZero imm 0xFF .pltIns
  | 6, 2 => requireZero imm 0xFE (.pltInsp (Polarity.ofBit (imm.getLsbD 0)))
  | 6, _ => .error .reservedOp
  | 7, 0 => requireZero imm 0xFF .iftXform
  | 7, _ => .error .reservedOp
  | 8, 0 => requireZero imm 0xFC (.cpgExt (FieldType.ofCode (imm.setWidth 2)))
  | 8, _ => .error .reservedOp
  | 9, 0 => requireZero imm 0xFF .crcInit
  | 9, 1 => requireZero imm 0x00 (.crcByte imm)
  | 9, 2 => requireZero imm 0xFF .crcFin
  | 9, _ => .error .reservedOp
  | _, _ => .error .reservedUnit

/-- A command word from its three fields (R45). -/
def cmdWord (unit op : BitVec 4) (imm : BitVec 8) : CmdWord := (unit ++ op) ++ imm

/-- One bit as an immediate: `imm[0]` (R47). -/
def bitImm (b : Bit) : BitVec 8 := (BitVec.ofBool b).setWidth 8

/-- The command word of an operation (R46). Every operation is one word (R52). -/
def encode : Instr → CmdWord
  | .scrSeed seed => cmdWord 1 0 (seed.setWidth 8)
  | .scrBit b => cmdWord 1 1 (bitImm b)
  | .scrGen => cmdWord 1 2 0
  | .encClr => cmdWord 2 0 0
  | .encBit b => cmdWord 2 1 (bitImm b)
  | .punStart rate => cmdWord 3 0 ((CodingRate.toCode rate).setWidth 8)
  | .punBit b => cmdWord 3 1 (bitImm b)
  | .ilvCfg mod => cmdWord 4 0 (mod.toCode.setWidth 8)
  | .ilvBit b => cmdWord 4 1 (bitImm b)
  | .ilvEnd => cmdWord 4 2 0
  | .mapCfg mod => cmdWord 5 0 (mod.toCode.setWidth 8)
  | .mapBit b => cmdWord 5 1 (bitImm b)
  | .mapEnd => cmdWord 5 2 0
  | .pltStart => cmdWord 6 0 0
  | .pltIns => cmdWord 6 1 0
  | .pltInsp pol => cmdWord 6 2 (bitImm pol.toBit)
  | .iftXform => cmdWord 7 0 0
  | .cpgExt field => cmdWord 8 0 (field.toCode.setWidth 8)
  | .crcInit => cmdWord 9 0 0
  | .crcByte byte => cmdWord 9 1 byte
  | .crcFin => cmdWord 9 2 0

/-- The command word whose bits are those of `w` below `nbits`, the others 0. A command is one 16-bit word
handled whole, so no byte order enters (R35, R52; entry 14). -/
def tableWord (nbits w : Nat) : CmdWord := BitVec.ofNat 16 (w % 2 ^ nbits)

/-- What `decode` reads from an instruction whose bits are `w` (bit 0 the least significant). -/
def decodeTableWord (nbits w : Nat) : Option Instr :=
  match decode (tableWord nbits w) with
  | .ok i => some i
  | .error _ => none

end Sys2Proof
end

