-- ==== Sys2Proof/Machine/State.lean ====
section
/-! DEFINITION. The state of the block (10_state.md R14), the command port that stands beside it, what a
step can answer, and the state after reset (70_reset_and_hazards.md R177). -/

namespace Sys2Proof.Machine

/-- The status of a response (60_exceptions.md R160). Codes 5 to 7 are reserved and never returned, so they
have no constructor (93_implementation_defined.md U7). -/
inductive Status where
  /-- Code 0: the operation was performed as its rule says. -/
  | ok
  /-- Code 1: a rate selection names no rate (R162). -/
  | unsupportedRate
  /-- Code 2: reserved for the surrounding software, returned by no operation (R163). -/
  | invalidLength
  /-- Code 3: a bit sequence's length does not fit the unit's block size (R164). -/
  | malformedBitSequence
  /-- Code 4: the command word is not a legal encoding (R161). -/
  | illegalCommand
deriving DecidableEq, Repr, Inhabited

/-- One element of a data result: R32's table has results of `Bit`, `Byte` and `Cplx` elements. -/
inductive Datum where
  | bit (b : Bit)
  | byte (b : Byte)
  | cplx (z : Cplx)
deriving DecidableEq, Repr

/-- A request: a command word and the data operand given with it (20_memory.md R32). -/
structure Request where
  cmd : CmdWord
  din : List Cplx
deriving DecidableEq, Repr

/-- A response: a status and a data result (R32, R160). -/
structure Response where
  status : Status
  dout   : List Datum
deriving DecidableEq, Repr

/-- What the host can do to the block. -/
inductive Input where
  /-- Present a request (R32, R37). -/
  | request (r : Request)
  /-- Assert reset, while the given request, if any, is in progress (R176). -/
  | reset (inProgress : Option Request)
deriving DecidableEq, Repr

/-- Unit SCR (R15). -/
structure Scr where
  /-- `scr.lfsr`: bit i is the document's register bit i. -/
  lfsr : BitVec 7
deriving DecidableEq, Repr

/-- Unit ENC (R16). -/
structure Enc where
  /-- `enc.hist`: bit 0 is the previous input bit, bit 5 the one six steps back. -/
  hist : BitVec 6
deriving DecidableEq, Repr

/-- Unit PUN (R17). -/
structure Pun where
  /-- `pun.rate`: a 2-bit code with three legal values, held by name (entry 10). -/
  rate  : CodingRate
  /-- `pun.phase`: the index into the pattern of the next input bit. -/
  phase : BitVec 3
deriving DecidableEq, Repr

/-- Unit ILV (R18). -/
structure Ilv where
  /-- `ilv.mod`: a 2-bit code, held by name (entry 10). -/
  mod  : Modulation
  /-- `ilv.fill`: the number of bits of the current symbol already written. -/
  fill : BitVec 9
  /-- `ilv.buf`: the bits of the symbol, by output position. -/
  buf  : Vector Bit 288
deriving DecidableEq, Repr

/-- Unit MAP (R19). -/
structure Map where
  /-- `map.mod`: a 2-bit code, held by name (entry 10). -/
  mod  : Modulation
  /-- `map.fill`: the number of bits of the current group already collected. -/
  fill : BitVec 3
  /-- `map.acc`: the bits of the group, the earliest first. -/
  acc  : Vector Bit 6
deriving DecidableEq, Repr

/-- Unit PLT (R20). -/
structure Plt where
  /-- `plt.lfsr`: the polarity generator, built as `scr.lfsr`. -/
  lfsr : BitVec 7
deriving DecidableEq, Repr

/-- Unit CRC (R21). -/
structure Crc where
  /-- `crc.reg`. -/
  reg : BitVec 32
deriving DecidableEq, Repr

/-- The machine: the registers of R14 unit by unit (IFT and CPG have none), and the command port. `inbox`,
`din` and `outbox` are the MODEL's own fields (entry 1): R11 makes commands and operands inputs of a step
and R22 makes a status an output, so no operation but the port reads them. -/
structure State where
  scr : Scr
  enc : Enc
  pun : Pun
  ilv : Ilv
  map : Map
  plt : Plt
  crc : Crc
  /-- What the host has presented and the block has not taken yet, in the order presented (R37). -/
  inbox  : List Input
  /-- The data operand of the request being performed (R32). -/
  din    : List Cplx
  /-- The responses given so far, oldest first (R37). -/
  outbox : List Response
deriving DecidableEq, Repr

/-- Nothing stops the block: "No error state is fatal to the process" (60_exceptions.md R166), and every
error is a status in a response (R165). So there is no fault (entry 12). -/
inductive Fault where
deriving DecidableEq, Repr

/-- Why the model has no next state. -/
inductive Refusal where
  /-- Answered by an arm of `exec` that has no meaning yet. Safe. No arm of this model answers it. -/
  | notModelled (mnemonic : String)
  /-- The request's `din` has not the length its operation takes. Such a request "cannot be formed"
  (20_memory.md R32) and 93_implementation_defined.md U9 says to refuse it. Answered by the port and by the
  four operations with a `din`. Safe: it takes no step where the hardware takes none (entry 5). -/
  | operandLength
deriving DecidableEq, Repr

/-- The state right after reset (R177), with an empty command port (entry 1). -/
def State.reset : State where
  scr := { lfsr := 0 }
  enc := { hist := 0 }
  pun := { rate := .half, phase := 0 }
  ilv := { mod := .bpsk, fill := 0, buf := Vector.replicate 288 false }
  map := { mod := .bpsk, fill := 0, acc := Vector.replicate 6 false }
  plt := { lfsr := 127 }
  crc := { reg := 0xFFFFFFFF }
  inbox  := []
  din    := []
  outbox := []

end Sys2Proof.Machine
end

