-- ==== Sys2Proof/Machine/Flags.lean ====
section
/-! DEFINITION. The block has no flags and no condition codes (10_state.md R22): the only outcome of an
operation besides its result and its register writes is the status of its response. Here are the two
conditions that decide a status other than OK once a word has been decoded. -/

namespace Sys2Proof.Machine

/-- A unit holds a partial block: its fill is not 0 (60_exceptions.md R164). -/
def holdsPartial (fill : Nat) : Bool := fill != 0

/-- The status with which `PUN.START` ends: a code that names no rate is `UnsupportedRate` (R162). -/
def rateStatus : Option CodingRate → Status
  | some _ => .ok
  | none => .unsupportedRate

/-- The 3-bit code of a status (R160). -/
def Status.code : Status → BitVec 3
  | .ok => 0
  | .unsupportedRate => 1
  | .invalidLength => 2
  | .malformedBitSequence => 3
  | .illegalCommand => 4

end Sys2Proof.Machine
end

