-- ==== Sys2Proof/Machine/Exact.lean ====
section
/-! DEFINITION. The exact arithmetic the symbol-domain units need (20_memory.md R43): sums, rational
multiples, and products with the cosines and sines of `2 pi q / 64`. No unit multiplies two operands, so every
value stays a combination of the reals that `ExactReal` names, whatever reals the host brings. A product of two cosines is half the sum
of the cosines of the sum and of the difference of their angles. -/

namespace Sys2Proof

/-- The number 0. -/
def Trig.zero : Trig := ⟨Vector.replicate 16 0⟩

/-- Add `c` to the coefficient of index `i`. -/
def Trig.addAt (i : Nat) (c : Rat) (v : Trig) : Trig :=
  if h : i < 16 then ⟨v.coeff.set i (v.coeff[i] + c) h⟩ else v

/-- Add `c * cos (2 pi m / 64)`, for any m: the cosine has period 64 in m, is even about 32, odd about 16,
and 0 at 16. -/
def Trig.addCos (m : Nat) (c : Rat) (v : Trig) : Trig :=
  let n := if m % 64 ≤ 32 then m % 64 else 64 - m % 64
  if n < 16 then v.addAt n c else if n = 16 then v else v.addAt (32 - n) (-c)

/-- The non-zero coefficients with their indices. -/
def Trig.terms (v : Trig) : List (Rat × Nat) := v.coeff.toList.zipIdx.filter (fun t => t.1.num ≠ 0)

/-- The sum of two numbers. -/
def Trig.add (u v : Trig) : Trig := v.terms.foldl (fun a t => a.addAt t.2 t.1) u

/-- A rational multiple. -/
def Trig.scale (r : Rat) (v : Trig) : Trig := v.terms.foldl (fun a t => a.addAt t.2 (r * t.1)) Trig.zero

/-- The product with `cos (2 pi q / 64)`. -/
def Trig.mulCos (q : Nat) (v : Trig) : Trig :=
  v.terms.foldl (fun a t => (a.addCos (t.2 + q) (t.1 / 2)).addCos (t.2 + (64 - q % 64)) (t.1 / 2)) Trig.zero

/-- Drop the zeros at the end: one list stands for one combination of the host's reals. -/
def trimGiven : List Trig → List Trig
  | [] => []
  | v :: vs =>
    match trimGiven vs with
    | [] => if v = Trig.zero then [] else [v]
    | w :: ws => v :: w :: ws

/-- The sum of two combinations of the host's reals. -/
def addGiven : List Trig → List Trig → List Trig
  | [], vs => vs
  | u :: us, [] => u :: us
  | u :: us, v :: vs => u.add v :: addGiven us vs

/-- The number 0. -/
def ExactReal.zero : ExactReal := ⟨Trig.zero, Trig.zero, Trig.zero, []⟩

/-- A rational number. -/
def ExactReal.ofRat (r : Rat) : ExactReal := ⟨Trig.zero.addAt 0 r, Trig.zero, Trig.zero, []⟩

/-- The host's real number `g_i`. -/
def ExactReal.ofGiven (i : Nat) : ExactReal :=
  ⟨Trig.zero, Trig.zero, Trig.zero, List.replicate i Trig.zero ++ [Trig.zero.addAt 0 1]⟩

/-- The sum of two numbers. -/
def ExactReal.add (x y : ExactReal) : ExactReal :=
  ⟨x.one.add y.one, x.r5.add y.r5, x.r21.add y.r21, trimGiven (addGiven x.given y.given)⟩

/-- A rational multiple. -/
def ExactReal.scale (r : Rat) (x : ExactReal) : ExactReal :=
  ⟨x.one.scale r, x.r5.scale r, x.r21.scale r, trimGiven (x.given.map (Trig.scale r))⟩

/-- The product with `cos (2 pi q / 64)`. -/
def ExactReal.mulCos (q : Nat) (x : ExactReal) : ExactReal :=
  ⟨x.one.mulCos q, x.r5.mulCos q, x.r21.mulCos q, trimGiven (x.given.map (Trig.mulCos q))⟩

/-- The product with `sin (2 pi q / 64)`, which is `cos (2 pi (q + 48) / 64)`. -/
def ExactReal.mulSin (q : Nat) (x : ExactReal) : ExactReal := x.mulCos (q + 48)

/-- The number 0. -/
def Cplx.zero : Cplx := ⟨ExactReal.zero, ExactReal.zero⟩

/-- A real rational number, imaginary part 0. -/
def Cplx.ofRat (r : Rat) : Cplx := ⟨ExactReal.ofRat r, ExactReal.zero⟩

/-- The sum of two numbers. -/
def Cplx.add (x y : Cplx) : Cplx := ⟨x.re.add y.re, x.im.add y.im⟩

/-- A rational multiple. -/
def Cplx.scale (r : Rat) (z : Cplx) : Cplx := ⟨z.re.scale r, z.im.scale r⟩

/-- The product with `exp (+j * 2 pi q / 64)` (46_ifft_64.md R123). -/
def Cplx.twiddle (q : Nat) (z : Cplx) : Cplx :=
  ⟨(z.re.mulCos q).add ((z.im.mulSin q).scale (-1)), (z.re.mulSin q).add (z.im.mulCos q)⟩

end Sys2Proof
end

