-- ==== Sys2Proof/Machine/Ops.lean ====
section
/-! DEFINITION. The named operations that the meanings share: writing a unit's registers, responding,
raising (the block's only kind of exception, 60_exceptions.md R165), the LFSR step, and `QUANT` on a result. -/

namespace Sys2Proof.Machine

/-- Write the registers of SCR. -/
def State.setScr (u : Scr) (s : State) : State := { s with scr := u }

/-- Write the registers of ENC. -/
def State.setEnc (u : Enc) (s : State) : State := { s with enc := u }

/-- Write the registers of PUN. -/
def State.setPun (u : Pun) (s : State) : State := { s with pun := u }

/-- Write the registers of ILV. -/
def State.setIlv (u : Ilv) (s : State) : State := { s with ilv := u }

/-- Write the registers of MAP. -/
def State.setMap (u : Map) (s : State) : State := { s with map := u }

/-- Write the registers of PLT. -/
def State.setPlt (u : Plt) (s : State) : State := { s with plt := u }

/-- Write the registers of CRC. -/
def State.setCrc (u : Crc) (s : State) : State := { s with crc := u }

/-- Give a response: responses come in command order (R160; 20_memory.md R37). -/
def State.respond (st : Status) (dout : List Datum) (s : State) : State :=
  { s with outbox := s.outbox ++ [⟨st, dout⟩] }

/-- Taking an exception: the response carries the status and an empty result, and nothing else is saved or
written (R165). There is no return from it (R167). What ILV.END and MAP.END write besides, they write
before raising (R164). -/
def State.raise (st : Status) (s : State) : State := s.respond st []

/-- Where an operation ends that does not raise: status OK, with its result (R9). -/
def answer (dout : List Datum) (s : State) : Host.Outcome State Fault Refusal := .next (s.respond .ok dout)

/-- Where an operation ends that raises. -/
def raising (st : Status) (s : State) : Host.Outcome State Fault Refusal := .next (s.raise st)

/-- The feedback bit of a 7-bit register: bit 6 xor bit 3 (40_scrambler_lfsr.md R61). -/
def lfsrFeedback (r : BitVec 7) : Bit := r.getLsbD 6 ^^ r.getLsbD 3

/-- One step of a 7-bit register: every bit moves to the next higher index, the feedback enters at bit 0
(10_state.md R15; 90_conflicts.md C1). -/
def lfsrNext (r : BitVec 7) : BitVec 7 := (r <<< 1) ||| (BitVec.ofBool (lfsrFeedback r)).setWidth 7

/-- `QUANT` on a complex value: on its real and on its imaginary part (00_scope.md R8, R9). -/
def quantCplx (z : Cplx) : Cplx := ⟨Config.quant z.re, Config.quant z.im⟩

/-- A result of `Bit` elements. -/
def bitResult (bs : List Bit) : List Datum := bs.map .bit

/-- A result of `Byte` elements. -/
def byteResult (bs : List Byte) : List Datum := bs.map .byte

/-- A result of `Cplx` elements, each through `QUANT` (R8, R9). -/
def cplxResult (zs : List Cplx) : List Datum := zs.map (fun z => .cplx (quantCplx z))

end Sys2Proof.Machine
end

