-- ==== Sys2Proof/Machine/Cpg.lean ====
section
/-! DEFINITION. Unit CPG, the cyclic prefix generator (47_cyclic_prefix_generator.md). It has no registers. -/

namespace Sys2Proof.Machine

/-- `extend(x, field)` of R126, x being 64 samples. The extra sample of LTF, SIGNAL and DATA is `x[0]`
(92_eei_decisions.md D11, entry 16). -/
def extend (x : List Cplx) : FieldType → List Cplx
  | .stf => x ++ x ++ x.take 33
  | .ltf => x.drop 32 ++ x ++ x ++ x.take 1
  | .signal => x.drop 48 ++ x ++ x.take 1
  | .data => x.drop 48 ++ x ++ x.take 1

/-- Edge windowing (R128): the first and the last sample by 0.5. -/
def windowEdges (y : List Cplx) : List Cplx :=
  (y.modify 0 (Cplx.scale (1 / 2))).modify (y.length - 1) (Cplx.scale (1 / 2))

/-- CPG.EXT (R127). -/
def execCpgExt (field : FieldType) (s : State) : Host.Outcome State Fault Refusal :=
  match s.operand 64 with
  | none => .refused .operandLength
  | some x => answer (cplxResult (windowEdges (extend x field))) s

end Sys2Proof.Machine
end

