-- ==== Sys2Proof/Machine/Crc.lean ====
section
/-! DEFINITION. Unit CRC, the table-driven CRC-32 (48_crc32_table_driven.md). -/

namespace Sys2Proof.Machine

/-- `update(c, b)` of R136: one table look-up, a shift by 8 and an xor. -/
def crcUpdate (c : BitVec 32) (b : Byte) : BitVec 32 :=
  crcTable.getD ((c ^^^ b.setWidth 32) &&& 0xFF).toNat 0 ^^^ (c >>> 8)

/-- The four bytes of a 32-bit value, least significant first (R139). -/
def littleEndian (v : BitVec 32) : List Byte :=
  [v.extractLsb' 0 8, v.extractLsb' 8 8, v.extractLsb' 16 8, v.extractLsb' 24 8]

/-- CRC.INIT (R137). -/
def execCrcInit (s : State) : Host.Outcome State Fault Refusal :=
  answer [] (s.setCrc { reg := 0xFFFFFFFF })

/-- CRC.BYTE (R138). -/
def execCrcByte (byte : Byte) (s : State) : Host.Outcome State Fault Refusal :=
  answer [] (s.setCrc { reg := crcUpdate s.crc.reg byte })

/-- CRC.FIN (R139): the register is read and not written. -/
def execCrcFin (s : State) : Host.Outcome State Fault Refusal :=
  answer (byteResult (littleEndian (s.crc.reg ^^^ 0xFFFFFFFF))) s

end Sys2Proof.Machine
end

