-- ==== Sys2Proof/Machine/Enc.lean ====
section
/-! DEFINITION. Unit ENC, the rate-1/2 convolutional encoder (41_conv_encoder.md). -/

namespace Sys2Proof.Machine

/-- The G1 output for input bit `b` and history `h` (R73): taps 1011011 on the current bit and the six
history bits, leftmost digit on the current bit (92_eei_decisions.md D6, entry 16). -/
def encoderA (b : Bit) (h : BitVec 6) : Bit :=
  b ^^ h.getLsbD 1 ^^ h.getLsbD 2 ^^ h.getLsbD 4 ^^ h.getLsbD 5

/-- The G2 output (R73): taps 1111001. -/
def encoderB (b : Bit) (h : BitVec 6) : Bit :=
  b ^^ h.getLsbD 0 ^^ h.getLsbD 1 ^^ h.getLsbD 2 ^^ h.getLsbD 5

/-- The history after input bit `b` (10_state.md R16). -/
def encoderNext (b : Bit) (h : BitVec 6) : BitVec 6 := (h <<< 1) ||| (BitVec.ofBool b).setWidth 6

/-- ENC.CLR (R72). -/
def execEncClr (s : State) : Host.Outcome State Fault Refusal := answer [] (s.setEnc { hist := 0 })

/-- ENC.BIT (R73): the G1 bit first, then the G2 bit. -/
def execEncBit (b : Bit) (s : State) : Host.Outcome State Fault Refusal :=
  answer (bitResult [encoderA b s.enc.hist, encoderB b s.enc.hist])
    (s.setEnc { hist := encoderNext b s.enc.hist })

end Sys2Proof.Machine
end

