-- ==== Sys2Proof/Machine/Ift.lean ====
section
/-! DEFINITION. Unit IFT, the 64-point inverse transform (46_ifft_64.md). It has no registers. -/

namespace Sys2Proof.Machine

/-- The bin k of `spectrum(f)` (R119): DC and the guard bins 27 to 37 are 0, bins 1 to 26 are slots 26 to 51,
bins 38 to 63 are slots 0 to 25. -/
def spectrumBin (f : List Cplx) (k : Nat) : Cplx :=
  if k = 0 then Cplx.zero
  else if k ≤ 26 then f.getD (k + 25) Cplx.zero
  else if k ≤ 37 then Cplx.zero
  else f.getD (k - 38) Cplx.zero

/-- `spectrum(f)` of R119: 64 bins from 52 slots. -/
def spectrum (f : List Cplx) : List Cplx := (List.range 64).map (spectrumBin f)

/-- The sample n of the inverse transform of 64 bins (R120):
`(1/64) * sum over k of X[k] * exp (+j * 2 pi k n / 64)` (92_eei_decisions.md D9, entry 16). -/
def inverseSample (bins : List Cplx) (n : Nat) : Cplx :=
  (bins.zipIdx.foldl (fun acc t => acc.add (t.1.twiddle (t.2 * n))) Cplx.zero).scale (1 / 64)

/-- The 64 samples (R120). -/
def inverseTransform (bins : List Cplx) : List Cplx := (List.range 64).map (inverseSample bins)

/-- IFT.XFORM (R120). -/
def execIftXform (s : State) : Host.Outcome State Fault Refusal :=
  match s.operand 52 with
  | none => .refused .operandLength
  | some f => answer (cplxResult (inverseTransform (spectrum f))) s

end Sys2Proof.Machine
end

