-- ==== Sys2Proof/Machine/Ilv.lean ====
section
/-! DEFINITION. Unit ILV, the bit interleaver (43_bit_interleaver.md). -/

namespace Sys2Proof.Machine

/-- `s` of R87: `max (floor (N_BPSC / 2)) 1`. -/
def interleaveShift (m : Modulation) : Nat := max (nBpsc m / 2) 1

/-- The first permutation of R87. -/
def interleaveFirst (m : Modulation) (k : Nat) : Nat := (nCbps m / 16) * (k % 16) + k / 16

/-- The second permutation of R87. -/
def interleaveSecond (m : Modulation) (i : Nat) : Nat :=
  interleaveShift m * (i / interleaveShift m) + (i + nCbps m - 16 * i / nCbps m) % interleaveShift m

/-- The index map `J(mod, k)` of R87: input position k of a symbol goes to output position J. -/
def interleaveIndex (m : Modulation) (k : Nat) : Nat := interleaveSecond m (interleaveFirst m k)

/-- ILV.CFG (R89). -/
def execIlvCfg (mod : Modulation) (s : State) : Host.Outcome State Fault Refusal :=
  if holdsPartial s.ilv.fill.toNat then raising .malformedBitSequence s
  else answer [] (s.setIlv { s.ilv with mod := mod })

/-- ILV.BIT (R90): store the bit at its permuted place, and emit the symbol when it is the last. The buffer
keeps its bits after that (10_state.md R18). -/
def execIlvBit (b : Bit) (s : State) : Host.Outcome State Fault Refusal :=
  let k := s.ilv.fill.toNat
  let buf := s.ilv.buf.setIfInBounds (interleaveIndex s.ilv.mod k) b
  if k + 1 = nCbps s.ilv.mod then
    answer (bitResult (buf.toList.take (nCbps s.ilv.mod))) (s.setIlv { s.ilv with fill := 0, buf := buf })
  else
    answer [] (s.setIlv { s.ilv with fill := s.ilv.fill + 1, buf := buf })

/-- ILV.END (R91): with a partial symbol held, clear the fill and raise. -/
def execIlvEnd (s : State) : Host.Outcome State Fault Refusal :=
  if holdsPartial s.ilv.fill.toNat then
    raising .malformedBitSequence (s.setIlv { s.ilv with fill := 0 })
  else answer [] s

end Sys2Proof.Machine
end

