-- ==== Sys2Proof/Machine/Map.lean ====
section
/-! DEFINITION. Unit MAP, the Gray-coded constellation mapper (44_qam_mapper_gray.md). The first half of a
group gives I, the second half Q, the earliest bit being the leftmost digit of a key (92_eei_decisions.md D8,
entry 16). -/

namespace Sys2Proof.Machine

/-- The I level of a group `g` (R97 to R100). -/
def levelI (m : Modulation) (g : Vector Bit 6) : Int :=
  match m with
  | .bpsk => level1 g[0]
  | .qpsk => level1 g[0]
  | .qam16 => level2 g[0] g[1]
  | .qam64 => level3 g[0] g[1] g[2]

/-- The Q level of a group `g` (R97 to R100); BPSK is purely real. -/
def levelQ (m : Modulation) (g : Vector Bit 6) : Int :=
  match m with
  | .bpsk => 0
  | .qpsk => level1 g[1]
  | .qam16 => level2 g[2] g[3]
  | .qam64 => level3 g[3] g[4] g[5]

/-- `map_<mod>(g)` of R97 to R100. Only the first N_BPSC bits of `g` are read (10_state.md R19). -/
def mapPoint (m : Modulation) (g : Vector Bit 6) : Cplx :=
  ⟨kmodLevel m (levelI m g), kmodLevel m (levelQ m g)⟩

/-- MAP.CFG (R101). -/
def execMapCfg (mod : Modulation) (s : State) : Host.Outcome State Fault Refusal :=
  if holdsPartial s.map.fill.toNat then raising .malformedBitSequence s
  else answer [] (s.setMap { s.map with mod := mod })

/-- MAP.BIT (R102): collect the bit, and emit the point when the group is full. -/
def execMapBit (b : Bit) (s : State) : Host.Outcome State Fault Refusal :=
  let f := s.map.fill.toNat
  let acc := s.map.acc.setIfInBounds f b
  if f + 1 = nBpsc s.map.mod then
    answer (cplxResult [mapPoint s.map.mod acc]) (s.setMap { s.map with fill := 0, acc := acc })
  else
    answer [] (s.setMap { s.map with fill := s.map.fill + 1, acc := acc })

/-- MAP.END (R103): with a partial group held, clear the fill and raise. -/
def execMapEnd (s : State) : Host.Outcome State Fault Refusal :=
  if holdsPartial s.map.fill.toNat then
    raising .malformedBitSequence (s.setMap { s.map with fill := 0 })
  else answer [] s

end Sys2Proof.Machine
end

