-- ==== Sys2Proof/Machine/Plt.lean ====
section
/-! DEFINITION. Unit PLT, the pilot inserter (45_pilot_inserter.md). -/

namespace Sys2Proof.Machine

/-- Fill the slots from `m` on, `n` of them: a pilot at a pilot slot, else the next data symbol. Where the
data has run out, which 48 symbols for the 52 slots never do, 0 stands. -/
def insertFrom (sign : Int) : (n m : Nat) → List Cplx → List Cplx
  | 0, _, _ => []
  | n + 1, m, d =>
    match pilotBase m with
    | some base => Cplx.ofRat (base * sign : Int) :: insertFrom sign n (m + 1) d
    | none => d.headD Cplx.zero :: insertFrom sign n (m + 1) d.tail

/-- `insert(d, pol)` of R109: 52 values from 48. -/
def insertPilots (d : List Cplx) (pol : Polarity) : List Cplx := insertFrom (polaritySign pol) 52 0 d

/-- The polarity a feedback bit stands for: "0→+1, 1→−1" (R110, R112). -/
def polarityOf (fb : Bit) : Polarity := if fb then .minus else .plus

/-- PLT.START (R111). -/
def execPltStart (s : State) : Host.Outcome State Fault Refusal := answer [] (s.setPlt { lfsr := 127 })

/-- PLT.INS (R112): the polarity from the generator, which steps. -/
def execPltIns (s : State) : Host.Outcome State Fault Refusal :=
  match s.operand 48 with
  | none => .refused .operandLength
  | some d =>
    answer (cplxResult (insertPilots d (polarityOf (lfsrFeedback s.plt.lfsr))))
      (s.setPlt { lfsr := lfsrNext s.plt.lfsr })

/-- PLT.INSP (R113): the polarity from the command; the generator is neither read nor written. -/
def execPltInsp (pol : Polarity) (s : State) : Host.Outcome State Fault Refusal :=
  match s.operand 48 with
  | none => .refused .operandLength
  | some d => answer (cplxResult (insertPilots d pol)) s

end Sys2Proof.Machine
end

