-- ==== Sys2Proof/Machine/Pun.lean ====
section
/-! DEFINITION. Unit PUN, the puncturer (42_puncturer.md). -/

namespace Sys2Proof.Machine

/-- PUN.START (R80): select the pattern and go to its first position, or raise `UnsupportedRate` with no
state written. -/
def execPunStart (rate : Option CodingRate) (s : State) : Host.Outcome State Fault Refusal :=
  match rate with
  | some r => answer [] (s.setPun { rate := r, phase := 0 })
  | none => raising (rateStatus none) s

/-- Whether the pattern keeps the bit at a phase. A phase outside the pattern, which no run reaches, drops
it (entry 9). -/
def punctureKeeps (rate : CodingRate) (phase : BitVec 3) : Bit :=
  (puncturePattern rate).getD phase.toNat false

/-- The phase after a bit (R81). -/
def punctureNext (rate : CodingRate) (phase : BitVec 3) : BitVec 3 :=
  BitVec.ofNat 3 ((phase.toNat + 1) % (puncturePattern rate).length)

/-- PUN.BIT (R81): a dropped bit answers the empty result with status OK. -/
def execPunBit (b : Bit) (s : State) : Host.Outcome State Fault Refusal :=
  answer (bitResult (if punctureKeeps s.pun.rate s.pun.phase then [b] else []))
    (s.setPun { s.pun with phase := punctureNext s.pun.rate s.pun.phase })

end Sys2Proof.Machine
end

