-- ==== Sys2Proof/Machine/Scr.lean ====
section
/-! DEFINITION. Unit SCR, the scrambler (40_scrambler_lfsr.md). -/

namespace Sys2Proof.Machine

/-- One step of the generator, answering its feedback bit xored with `b` (R63, R64). -/
def scrambleStep (b : Bit) (s : State) : Host.Outcome State Fault Refusal :=
  answer (bitResult [b ^^ lfsrFeedback s.scr.lfsr]) (s.setScr { lfsr := lfsrNext s.scr.lfsr })

/-- SCR.SEED (R62): load the register. Seed 0 is accepted (R67). -/
def execScrSeed (seed : BitVec 7) (s : State) : Host.Outcome State Fault Refusal :=
  answer [] (s.setScr { lfsr := seed })

/-- SCR.BIT (R63). -/
def execScrBit (b : Bit) (s : State) : Host.Outcome State Fault Refusal := scrambleStep b s

/-- SCR.GEN (R64): "identical to SCR.BIT 0". -/
def execScrGen (s : State) : Host.Outcome State Fault Refusal := scrambleStep false s

end Sys2Proof.Machine
end

