-- ==== Sys2Proof/Machine/Dispatch.lean ====
section
/-! DEFINITION. The meaning of each operation, one arm per constructor. -/

namespace Sys2Proof.Machine

def exec (i : Instr) (s : State) : Host.Outcome State Fault Refusal :=
  match i with
  | .scrSeed seed => Sys2Proof.Machine.execScrSeed seed s
  | .scrBit b => Sys2Proof.Machine.execScrBit b s
  | .scrGen => Sys2Proof.Machine.execScrGen s
  | .encClr => Sys2Proof.Machine.execEncClr s
  | .encBit b => Sys2Proof.Machine.execEncBit b s
  | .punStart rate => Sys2Proof.Machine.execPunStart rate s
  | .punBit b => Sys2Proof.Machine.execPunBit b s
  | .ilvCfg mod => Sys2Proof.Machine.execIlvCfg mod s
  | .ilvBit b => Sys2Proof.Machine.execIlvBit b s
  | .ilvEnd => Sys2Proof.Machine.execIlvEnd s
  | .mapCfg mod => Sys2Proof.Machine.execMapCfg mod s
  | .mapBit b => Sys2Proof.Machine.execMapBit b s
  | .mapEnd => Sys2Proof.Machine.execMapEnd s
  | .pltStart => Sys2Proof.Machine.execPltStart s
  | .pltIns => Sys2Proof.Machine.execPltIns s
  | .pltInsp pol => Sys2Proof.Machine.execPltInsp pol s
  | .iftXform => Sys2Proof.Machine.execIftXform s
  | .cpgExt field => Sys2Proof.Machine.execCpgExt field s
  | .crcInit => Sys2Proof.Machine.execCrcInit s
  | .crcByte byte => Sys2Proof.Machine.execCrcByte byte s
  | .crcFin => Sys2Proof.Machine.execCrcFin s

end Sys2Proof.Machine
end

