-- ==== Sys2Proof/Machine/Port.lean ====
section
/-! DEFINITION. The command port (20_memory.md R32, R37): taking one input, and what stands for a fetch. The
block fetches nothing itself (R39). -/

namespace Sys2Proof.Machine

/-- Take a request: its operand stands at the port, and `rest` is what the host presented after it. -/
def State.accept (r : Request) (rest : List Input) (s : State) : State := { s with inbox := rest, din := r.din }

/-- Reset (70_reset_and_hazards.md R176): every register to the value of R177, the request in progress
abandoned without a response. The responses already given stay given, and the host's later inputs stand. -/
def State.resetBy (rest : List Input) (s : State) : State :=
  { State.reset with inbox := rest, outbox := s.outbox }

/-- Perform a request (R33, R49): an illegal word raises `IllegalCommand` before any unit is involved
(60_exceptions.md R161, R168), whatever operand came with it; a legal word runs its operation. An operand
that does not fit the operation is refused (entry 5). `s` is the state with the request taken. -/
def performRequest (r : Request) (s : State) : Host.Outcome State Fault Refusal :=
  match decode r.cmd with
  | .error _ => raising .illegalCommand s
  | .ok i => if i.wellFormedWith r.din then exec i s else .refused .operandLength

/-- Serve the next input. With none, the block holds its registers (R174). -/
def serve (s : State) : Host.Outcome State Fault Refusal :=
  match s.inbox with
  | [] => .next s
  | .reset _ :: rest => .next (s.resetBy rest)
  | .request r :: rest => performRequest r (s.accept r rest)

/-- The length of the operand that a command word takes; 0 for an illegal word. -/
def operandLengthOf (w : CmdWord) : Nat :=
  match decode w with
  | .ok i => i.dinLength
  | .error _ => 0

/-- The request with command word `w` and an operand of zeros of the length it takes. -/
def requestOf (w : CmdWord) : Request := ⟨w, List.replicate (operandLengthOf w) Cplx.zero⟩

/-- Present a command word to the port, before anything else the host has presented (entry 2). -/
def State.present (w : CmdWord) (s : State) : State := { s with inbox := .request (requestOf w) :: s.inbox }

end Sys2Proof.Machine
end

