-- ==== Sys2Proof/Machine/Sequence.lean ====
section
/-! DEFINITION. The document's whole-sequence functions, and the pseudo-operations of 30_encoding.md R56 that
realise them. They are no part of the hardware (92_eei_decisions.md D25): statements compare runs of the
operations with them. They are written on lists, as the document writes them, and not over the meanings. -/

namespace Sys2Proof.Machine

/-- The document's register of a seed: bit i = `(seed >> i) & 1`, front first (40_scrambler_lfsr.md R61). -/
def seedBits (seed : BitVec 7) : List Bit := (List.range 7).map (fun i => seed.getLsbD i)

/-- The LFSR on a register list: "shift register right, inserting feedback at the front" (R61). -/
def lfsrFrom : Nat → List Bit → List Bit
  | 0, _ => []
  | n + 1, r =>
    let fb := r.getD 6 false ^^ r.getD 3 false
    fb :: lfsrFrom n (fb :: r.take 6)

/-- `lfsr(length, seed)` of R61. -/
def lfsr (length : Nat) (seed : BitVec 7) : List Bit := lfsrFrom length (seedBits seed)

/-- `scramble(bits, seed)` of R65. -/
def scramble (bits : List Bit) (seed : BitVec 7) : List Bit :=
  List.zipWith (fun a b => a ^^ b) bits (lfsr bits.length seed)

/-- `G1 = 1011011`, leftmost digit first (41_conv_encoder.md R71). -/
def generator1 : List Bit := [true, false, true, true, false, true, true]

/-- `G2 = 1111001` (R71). -/
def generator2 : List Bit := [true, true, true, true, false, false, true]

/-- The parity of a register ANDed with a generator (R71). -/
def parityWith (g reg : List Bit) : Bit := (List.zipWith (fun a b => a && b) g reg).foldl (fun a b => a ^^ b) false

/-- The encoder from six history bits, the most recent first (R71). -/
def convEncodeFrom : List Bit → List Bit → List Bit
  | _, [] => []
  | h, b :: bs =>
    parityWith generator1 (b :: h) :: parityWith generator2 (b :: h) :: convEncodeFrom (b :: h.take 5) bs

/-- `encode(bits)` of R71. -/
def convEncode (bits : List Bit) : List Bit := convEncodeFrom (List.replicate 6 false) bits

/-- `puncture(e, rate)` of 42_puncturer.md R79. -/
def puncture (e : List Bit) (rate : CodingRate) : List Bit :=
  (e.zipIdx.filter (fun t => (puncturePattern rate).getD (t.2 % (puncturePattern rate).length) false)).map (·.1)

/-- The lengths of R82. -/
def puncturedLength (rate : CodingRate) (n : Nat) : Nat :=
  match rate with
  | .half => n
  | .twoThirds => 3 * (n / 4) + min (n % 4) 3
  | .threeQuarters => 4 * (n / 6) + [0, 1, 2, 3, 3, 3].getD (n % 6) 0

/-- The input position that goes to output position j (43_bit_interleaver.md R87, R88). -/
def interleaveSource (m : Modulation) (j : Nat) : Nat :=
  (List.range (nCbps m)).findIdx (fun k => interleaveIndex m k == j)

/-- One symbol interleaved: `out[J(mod, k)] = s[k]` (R92). -/
def interleaveSymbol (m : Modulation) (s : List Bit) : List Bit :=
  (List.range (nCbps m)).map (fun j => s.getD (interleaveSource m j) false)

/-- The inverse of one symbol: `in[k] = out[J(mod, k)]` (R93). -/
def deinterleaveSymbol (m : Modulation) (out : List Bit) : List Bit :=
  (List.range (nCbps m)).map (fun k => out.getD (interleaveIndex m k) false)

/-- `interleave(s, mod)`, symbol by symbol (R92). -/
def interleave (s : List Bit) (m : Modulation) : List Bit :=
  (List.range (s.length / nCbps m)).flatMap
    (fun t => interleaveSymbol m ((s.drop (t * nCbps m)).take (nCbps m)))

/-- The first bits of a list as a group. -/
def groupOf (g : List Bit) : Vector Bit 6 :=
  #v[g.getD 0 false, g.getD 1 false, g.getD 2 false, g.getD 3 false, g.getD 4 false, g.getD 5 false]

/-- `modulate(s, mod)` before `QUANT` (44_qam_mapper_gray.md R104). -/
def modulate (s : List Bit) (m : Modulation) : List Cplx :=
  (List.range (s.length / nBpsc m)).map
    (fun t => mapPoint m (groupOf ((s.drop (t * nBpsc m)).take (nBpsc m))))

/-- The polarity sequence `p[n]` (45_pilot_inserter.md R110). -/
def polarityAt (n : Nat) : Polarity := if (lfsr (n + 1) 127).getD n false then .minus else .plus

/-- One of the eight steps of 48_crc32_table_driven.md R135. -/
def crcShift (c : BitVec 32) : BitVec 32 := if c.getLsbD 0 then (c >>> 1) ^^^ 0xEDB88320 else c >>> 1

/-- Entry i of `CRC_T` by its eight steps (R135). -/
def crcEntry (i : Nat) : BitVec 32 := Nat.repeat crcShift 8 (BitVec.ofNat 32 i)

/-- `update_bitwise(c, b)` of R136. -/
def crcUpdateBitwise (c : BitVec 32) (b : Byte) : BitVec 32 := Nat.repeat crcShift 8 (c ^^^ b.setWidth 32)

/-- `crc32(m)` of R140, with the bitwise update. -/
def crc32 (m : List Byte) : List Byte :=
  let v := m.foldl crcUpdateBitwise 0xFFFFFFFF ^^^ 0xFFFFFFFF
  [v.setWidth 8, (v >>> 8).setWidth 8, (v >>> 16).setWidth 8, (v >>> 24).setWidth 8]

/-- `LFSR n, seed` (R56). -/
def expandLfsr (n : Nat) (seed : BitVec 7) : List Instr := .scrSeed seed :: List.replicate n .scrGen

/-- `SCRAMBLE s, seed` (R56). -/
def expandScramble (s : List Bit) (seed : BitVec 7) : List Instr := .scrSeed seed :: s.map .scrBit

/-- `ENCODE s` (R56). -/
def expandEncode (s : List Bit) : List Instr := .encClr :: s.map .encBit

/-- `PUNCTURE e, rate` (R56). -/
def expandPuncture (e : List Bit) (rate : CodingRate) : List Instr := .punStart (some rate) :: e.map .punBit

/-- `INTERLEAVE s, mod` (R56). -/
def expandInterleave (s : List Bit) (m : Modulation) : List Instr := .ilvCfg m :: s.map .ilvBit ++ [.ilvEnd]

/-- `MODULATE s, mod` (R56). -/
def expandModulate (s : List Bit) (m : Modulation) : List Instr := .mapCfg m :: s.map .mapBit ++ [.mapEnd]

/-- `CRC32 m` (R56). -/
def expandCrc32 (m : List Byte) : List Instr := .crcInit :: m.map .crcByte ++ [.crcFin]

end Sys2Proof.Machine
end

