-- ==== Sys2Proof/Safety.lean ====
section
/-! DEFINITION. The terms in which statements speak of the machine: legal register values, well-formed
requests, units at rest, which state belongs to which unit, runs of operations, and the real and complex
numbers that the exact values stand for. -/

namespace Sys2Proof

/-- The real number a rational combination of cosines stands for. -/
noncomputable def Trig.toReal (v : Trig) : ℝ :=
  ∑ k : Fin 16, (v.coeff[k] : ℝ) * Real.cos (2 * Real.pi * (k : ℕ) / 64)

/-- Which real numbers the host's reals `g_0, g_1, ...` are: any, the same throughout a run (entry 7). A
statement about the numbers holds for every reading. -/
abbrev Reading := ℕ → ℝ

/-- The real number that a combination of the host's reals from `g_i` on stands for. -/
noncomputable def givenSum (ρ : Reading) : ℕ → List Trig → ℝ
  | _, [] => 0
  | i, v :: vs => ρ i * v.toReal + givenSum ρ (i + 1) vs

/-- The real number an exact real stands for. -/
noncomputable def ExactReal.toReal (ρ : Reading) (x : ExactReal) : ℝ :=
  x.one.toReal + Real.sqrt 5 * x.r5.toReal + Real.sqrt 21 * x.r21.toReal + givenSum ρ 0 x.given

/-- The complex number `re + j*im` (00_scope.md R9). -/
noncomputable def Cplx.toComplex (ρ : Reading) (z : Cplx) : ℂ := ⟨z.re.toReal ρ, z.im.toReal ρ⟩

/-- Any n complex numbers can be presented as an operand: for some operand and some reading, they are what it
stands for (45_pilot_inserter.md R115; 93_implementation_defined.md U13). -/
def AnyOperand (n : ℕ) : Prop :=
  ∀ f : List ℂ, f.length = n → ∃ (ρ : Reading) (d : List Cplx), d.length = n ∧ d.map (Cplx.toComplex ρ) = f

namespace Machine

/-- The `match` and `mask` columns of 30_encoding.md R46, row by row. -/
def opcodeRows : List (CmdWord × CmdWord) :=
  [(0x1000, 0xFF80), (0x1100, 0xFFFE), (0x1200, 0xFFFF), (0x2000, 0xFFFF), (0x2100, 0xFFFE),
   (0x3000, 0xFFFC), (0x3100, 0xFFFE), (0x4000, 0xFFFC), (0x4100, 0xFFFE), (0x4200, 0xFFFF),
   (0x5000, 0xFFFC), (0x5100, 0xFFFE), (0x5200, 0xFFFF), (0x6000, 0xFFFF), (0x6100, 0xFFFF),
   (0x6200, 0xFFFE), (0x7000, 0xFFFF), (0x8000, 0xFFFC), (0x9000, 0xFFFF), (0x9100, 0xFF00),
   (0x9200, 0xFFFF)]

/-- The word `w` matches a row (R46). -/
def matchesRow (w : CmdWord) (row : CmdWord × CmdWord) : Bool := w &&& row.2 == row.1

/-- `w` is the command word of `i`, and no other word is. -/
def OnlyWord (w : CmdWord) (i : Instr) : Prop := ∀ v : CmdWord, decode v = .ok i ↔ v = w

/-- The bound on `pun.phase` (10_state.md R14). -/
def phaseBound : CodingRate → Nat
  | .half => 1
  | .twoThirds => 4
  | .threeQuarters => 6

/-- The phases at which the pattern drops the bit (42_puncturer.md R79). -/
def droppedPhases : CodingRate → List Nat
  | .half => []
  | .twoThirds => [3]
  | .threeQuarters => [3, 4]

/-- The guard length G of 47_cyclic_prefix_generator.md R126. -/
def guardLength : FieldType → Nat
  | .stf => 0
  | .ltf => 32
  | .signal => 16
  | .data => 16

/-- The total length T of R126. -/
def extendedLength : FieldType → Nat
  | .stf => 161
  | .ltf => 161
  | .signal => 81
  | .data => 81

/-- The slot of data symbol n among the 52 (45_pilot_inserter.md R109). -/
def dataSlot (n : Nat) : Nat :=
  if n ≤ 4 then n else if n ≤ 17 then n + 1 else if n ≤ 29 then n + 2 else if n ≤ 42 then n + 3 else n + 4

/-- The number in bin k of the spectrum of 52 slots (46_ifft_64.md R119). -/
noncomputable def binValue (ρ : Reading) (f : List Cplx) (k : ℕ) : ℂ :=
  if k = 0 then 0
  else if k ≤ 26 then (f.getD (k + 25) Cplx.zero).toComplex ρ
  else if k ≤ 37 then 0
  else (f.getD (k - 38) Cplx.zero).toComplex ρ

/-- The six low bits of a number as a group, for counting over all groups. -/
def groupOfNat (n : Nat) : Vector Bit 6 := groupOf ((List.range 6).map n.testBit)

/-- Every register holds a legal value (the "legal values" column of R14; the other registers have no
illegal one). -/
abbrev State.Legal (s : State) : Prop :=
  s.pun.phase.toNat < phaseBound s.pun.rate ∧ s.ilv.fill.toNat < nCbps s.ilv.mod ∧
    s.map.fill.toNat < nBpsc s.map.mod

/-- Every unit is at rest: no partial block is held (70_reset_and_hazards.md R192). -/
abbrev State.AtRest (s : State) : Prop := s.ilv.fill = 0 ∧ s.map.fill = 0

/-- A request that can be formed: its operand has the length its operation takes (20_memory.md R32). An
illegal word takes no operand and is answered whatever comes with it. -/
def Request.formed (r : Request) : Bool :=
  match decode r.cmd with
  | .ok i => i.wellFormedWith r.din
  | .error _ => true

/-- An input that can be presented. -/
def Input.formed : Input → Bool
  | .request r => r.formed
  | .reset _ => true

/-- Everything waiting at the port can be presented. -/
abbrev State.PortFormed (s : State) : Prop := s.inbox.all Input.formed = true

/-- An input that gets a response: a request does, a reset does not (70_reset_and_hazards.md R176). -/
def Input.answered : Input → Bool
  | .request _ => true
  | .reset _ => false

/-- The registers of two states are the same in every unit. -/
def State.SameRegisters (s t : State) : Prop :=
  s.scr = t.scr ∧ s.enc = t.enc ∧ s.pun = t.pun ∧ s.ilv = t.ilv ∧ s.map = t.map ∧ s.plt = t.plt ∧ s.crc = t.crc

/-- The registers of one unit are the same in two states. IFT and CPG have none (R14). -/
def State.AgreeOn (u : BlockUnit) (s t : State) : Prop :=
  match u with
  | .scr => s.scr = t.scr
  | .enc => s.enc = t.enc
  | .pun => s.pun = t.pun
  | .ilv => s.ilv = t.ilv
  | .map => s.map = t.map
  | .plt => s.plt = t.plt
  | .ift => True
  | .cpg => True
  | .crc => s.crc = t.crc

/-- The operations of a list performed one after another (20_memory.md R37), stopping where one has no next
state. -/
def execAll : List Instr → State → Host.Outcome State Fault Refusal
  | [], s => .next s
  | i :: is, s =>
    match exec i s with
    | .next t => execAll is t
    | .fault r => .fault r
    | .refused r => .refused r

/-- A run of operations completes with every status OK and answers, all its results taken together, `d`. -/
def Answers (is : List Instr) (s : State) (d : List Datum) : Prop :=
  ∃ (t : State) (rs : List Response), execAll is s = .next t ∧ t.outbox = s.outbox ++ rs ∧
    (∀ r ∈ rs, r.status = .ok) ∧ rs.flatMap (fun r => r.dout) = d

end Machine

end Sys2Proof
end

