-- ==== Sys2Proof/Certificates/Slice0/Obligations.lean ====
section
/-! DEFINITION. The statements for the provers. Each says what the machine does; the docstring names the
rules of spec/ it formalises. `{ s with … }` on the right of a next state is the whole frame: every field not
named is unchanged. -/

open Sys2Proof Sys2Proof.Machine

/-! ## Reset and the port -/

/-- R177's table, and that for every unit but SCR the reset state is what its start operation leaves. -/
def Obligations.ResetRegisterValues : Prop :=
  State.reset.scr.lfsr = 0 ∧ State.reset.enc.hist = 0 ∧
  CodingRate.toCode (some State.reset.pun.rate) = 0 ∧ State.reset.pun.phase = 0 ∧
  State.reset.ilv.mod.toCode = 0 ∧ State.reset.ilv.fill = 0 ∧
  (∀ j, (h : j < 288) → State.reset.ilv.buf[j] = false) ∧
  State.reset.map.mod.toCode = 0 ∧ State.reset.map.fill = 0 ∧
  (∀ j, (h : j < 6) → State.reset.map.acc[j] = false) ∧
  State.reset.plt.lfsr = 127 ∧ State.reset.crc.reg = 0xFFFFFFFF ∧
  ∀ i ∈ [Instr.encClr, .punStart (some .half), .ilvCfg .bpsk, .mapCfg .bpsk, .pltStart, .crcInit],
    ∃ t, exec i State.reset = .next t ∧ t.SameRegisters State.reset

/-- A reset input (R176, R178): the registers go to their reset values, the request in progress gets no
response, the responses already given and the inputs still to come stand. The last two, and the order in which
a reset is taken, are the model's port (entries 1 and 3). -/
def Obligations.ResetInputRestoresRegisters : Prop :=
  ∀ (s : State) (p : Option Request) (rest : List Input), s.inbox = .reset p :: rest →
    ∃ t, step s = .next t ∧ t.SameRegisters State.reset ∧ t.inbox = rest ∧ t.outbox = s.outbox

/-- An idle block holds its registers (R174). That a step then answers the same state is the model's reading
(entry 4). -/
def Obligations.IdleStepHoldsState : Prop := ∀ s : State, s.inbox = [] → step s = .next s

/-- A step performs the operation its request's word decodes to, on the state with the request taken from the
port and its operand standing there (R33, R37, R49; the port's fields are the model's, entry 1). -/
def Obligations.StepRunsDecodedInstruction : Prop :=
  ∀ (s : State) (r : Request) (rest : List Input) (i : Instr),
    s.inbox = .request r :: rest → decode r.cmd = .ok i → i.wellFormedWith r.din = true →
    step s = exec i { s with inbox := rest, din := r.din }

/-- A word that matches no row is answered IllegalCommand with an empty result, whatever operand comes with
it, and no register of any unit changes (R161, R50). "Whatever operand" is the model's choice (entry 5). -/
def Obligations.IllegalWordAnswersIllegalCommand : Prop :=
  ∀ (s : State) (r : Request) (rest : List Input),
    s.inbox = .request r :: rest → (∀ row ∈ opcodeRows, matchesRow r.cmd row = false) →
    step s = .next { s with inbox := rest, din := r.din, outbox := s.outbox ++ [⟨.illegalCommand, []⟩] }

/-- A request whose operand has another length than its operation takes is refused by name
(93_implementation_defined.md U9; the refusal is the model's, entry 5), by the port and by the four operations
that read an operand. -/
def Obligations.IllFormedRequestRefused : Prop :=
  (∀ (s : State) (r : Request) (rest : List Input) (i : Instr),
    s.inbox = .request r :: rest → decode r.cmd = .ok i → r.din.length ≠ i.dinLength →
    step s = .refused .operandLength) ∧
  (∀ s : State, s.din.length ≠ 48 → exec .pltIns s = .refused .operandLength) ∧
  (∀ (s : State) (pol : Polarity), s.din.length ≠ 48 → exec (.pltInsp pol) s = .refused .operandLength) ∧
  (∀ s : State, s.din.length ≠ 52 → exec .iftXform s = .refused .operandLength) ∧
  (∀ (s : State) (field : FieldType), s.din.length ≠ 64 → exec (.cpgExt field) s = .refused .operandLength)

/-! ## Encoding -/

/-- Decoding the word of an operation gives the operation back, for all 21 and every operand (R46, R49). -/
def Obligations.DecodeEncodeRoundTrip : Prop := ∀ i : Instr, decode (encode i) = .ok i

/-- A word that decodes is the word of what it decodes to: no bit is dropped (R47, R49). -/
def Obligations.EncodeDecodeRoundTrip : Prop := ∀ (w : CmdWord) (i : Instr), decode w = .ok i → encode i = w

/-- A word decodes exactly when it matches a row of R46, and then it matches one row only. -/
def Obligations.LegalWordsMatchOneRow : Prop :=
  ∀ w : CmdWord,
    ((∃ i, decode w = .ok i) ↔ ∃ row ∈ opcodeRows, matchesRow w row = true) ∧
    (opcodeRows.filter (matchesRow w)).length ≤ 1

/-- "Of 65536 words, 421 are legal" (R50). -/
def Obligations.LegalWordCount : Prop :=
  ((List.range 65536).filter (fun n => (decodeTableWord 16 n).isSome)).length = 421

/-- The example words of R62, R80, R89, R101, R113, R127, R138 and of 95_test_vectors.md V25, and some of
its illegal ones. A sanity statement. -/
def Obligations.SpecWordsDecode : Prop :=
  decode 0x105D = .ok (.scrSeed 93) ∧ decode 0x1101 = .ok (.scrBit true) ∧ decode 0x1200 = .ok .scrGen ∧
  decode 0x2000 = .ok .encClr ∧ decode 0x2100 = .ok (.encBit false) ∧
  decode 0x3002 = .ok (.punStart (some .threeQuarters)) ∧ decode 0x3003 = .ok (.punStart none) ∧
  decode 0x4002 = .ok (.ilvCfg .qam16) ∧ decode 0x4200 = .ok .ilvEnd ∧ decode 0x5003 = .ok (.mapCfg .qam64) ∧
  decode 0x5101 = .ok (.mapBit true) ∧ decode 0x6100 = .ok .pltIns ∧ decode 0x6201 = .ok (.pltInsp .minus) ∧
  decode 0x7000 = .ok .iftXform ∧ decode 0x8003 = .ok (.cpgExt .data) ∧ decode 0x9161 = .ok (.crcByte 0x61) ∧
  decode 0x0000 = .error .reservedUnit ∧ decode 0xA000 = .error .reservedUnit ∧
  decode 0x1300 = .error .reservedOp ∧ decode 0x1080 = .error .unusedImmBit

/-! ## The whole machine -/

/-- Every step keeps the registers within R14's legal values: "the counters never hold a value outside the
range given" (R13). -/
def Obligations.StepKeepsRegistersLegal : Prop :=
  ∀ s t : State, s.Legal → step s = .next t → t.Legal

/-- The reset state has legal register values (R14, R177) and every unit at rest (R192). That nothing ill-formed
waits at its port is the model's choice: the inbox is empty at reset (entry 1). -/
def Obligations.ResetIsLegalAndAtRest : Prop :=
  State.reset.Legal ∧ State.reset.AtRest ∧ State.reset.PortFormed

/-- Where everything at the port can be formed, a step is never refused and never faults, and what is left at
the port can still be formed ("every request is eventually answered", R190; no error is fatal, R166). The model's
choices here: the port's lists (entry 1), that a step with nothing waiting answers (entry 4), and that an illegal
word is answered with any operand (entry 5, inside `PortFormed`). -/
def Obligations.FormedRequestsAreAnswered : Prop :=
  ∀ s : State, s.PortFormed → ∃ t, step s = .next t ∧ t.PortFormed

/-- After as many steps as there are inputs the port is empty, the responses given before stand, and one
response has been added for each request, none for a reset (R37, R176, R190). The model's choices here: the port's lists
(entry 1), that a reset leaves the responses given and the inputs still to come (entry 3, unsafe for a count around
a reset), and that an illegal word is answered with any operand (entry 5). -/
def Obligations.InboxServedCompletely : Prop :=
  ∀ s : State, s.PortFormed → ∃ (t : State) (rs : List Response),
    Sys2Proof.core.run s.inbox.length s = .next t ∧ t.inbox = [] ∧ t.outbox = s.outbox ++ rs ∧
    rs.length = (s.inbox.filter Input.answered).length

/-- No operation reads or writes a register of another unit (R26): what it answers and what it writes depend
on its own unit's registers and its operand alone, and every other unit's registers are unchanged. -/
def Obligations.UnitsShareNoState : Prop :=
  ∀ (i : Instr) (s s' t : State), s.AgreeOn i.unit s' → s.din = s'.din → exec i s = .next t →
    (∃ (t' : State) (r : Response), exec i s' = .next t' ∧ t.AgreeOn i.unit t' ∧
      t.outbox = s.outbox ++ [r] ∧ t'.outbox = s'.outbox ++ [r]) ∧
    ∀ u : BlockUnit, u ≠ i.unit → t.AgreeOn u s

/-- Operations on different units may be interleaved either way (R37). Two requests to different units, each with
its own operand, are both answered by two steps in either order: the registers end the same and each request gets
the same response. The same holds of any two operations on one state and operand. The port's fields are the
model's own (entry 1). -/
def Obligations.OperationsOnOtherUnitsCommute : Prop :=
  (∀ (s : State) (ri rj : Request) (rest : List Input) (i j : Instr),
    decode ri.cmd = .ok i → decode rj.cmd = .ok j → i.wellFormedWith ri.din = true →
    j.wellFormedWith rj.din = true → i.unit ≠ j.unit →
    ∃ (t u : State) (a b : Response),
      Sys2Proof.core.run 2 { s with inbox := .request ri :: .request rj :: rest } = .next t ∧
      Sys2Proof.core.run 2 { s with inbox := .request rj :: .request ri :: rest } = .next u ∧
      t.SameRegisters u ∧ t.inbox = rest ∧ u.inbox = rest ∧
      t.outbox = s.outbox ++ [a, b] ∧ u.outbox = s.outbox ++ [b, a]) ∧
  ∀ (i j : Instr) (s t : State), i.unit ≠ j.unit → execAll [i, j] s = .next t →
    ∃ (u : State) (ri rj : Response), execAll [j, i] s = .next u ∧ t.SameRegisters u ∧
      t.outbox = s.outbox ++ [ri, rj] ∧ u.outbox = s.outbox ++ [rj, ri]

/-- Which operations answer which status, and exactly when (R175, R162, R164). -/
def Obligations.StatusesByOperation : Prop :=
  ∀ (i : Instr) (s t : State), exec i s = .next t →
    ∃ (st : Status) (d : List Datum), t.outbox = s.outbox ++ [⟨st, d⟩] ∧
      (st = .ok ∨ st = .unsupportedRate ∨ st = .malformedBitSequence) ∧
      (st = .unsupportedRate ↔ i = .punStart none) ∧
      (st = .malformedBitSequence ↔
        ((i = .ilvEnd ∨ ∃ m, i = .ilvCfg m) ∧ s.ilv.fill ≠ 0) ∨
        ((i = .mapEnd ∨ ∃ m, i = .mapCfg m) ∧ s.map.fill ≠ 0))

/-- An operation that raises answers an empty result and writes no state, but ILV.END and MAP.END, which
clear their unit's fill (R165). -/
def Obligations.RaisingWritesNothingElse : Prop :=
  ∀ (i : Instr) (s t : State) (st : Status) (d : List Datum),
    exec i s = .next t → t.outbox = s.outbox ++ [⟨st, d⟩] → st ≠ .ok →
    d = [] ∧
    (i = .ilvEnd → t = { s with ilv := { s.ilv with fill := 0 }, outbox := s.outbox ++ [⟨st, []⟩] }) ∧
    (i = .mapEnd → t = { s with map := { s.map with fill := 0 }, outbox := s.outbox ++ [⟨st, []⟩] }) ∧
    (i ≠ .ilvEnd → i ≠ .mapEnd → t = { s with outbox := s.outbox ++ [⟨st, []⟩] })

/-- Repeating an erroring operation gives the same error, "unless it was an `END` (whose second issue finds the
fill cleared and returns `OK`)" (R166). -/
def Obligations.ErrorRepeatsUnlessEnd : Prop :=
  ∀ (i : Instr) (s t : State) (st : Status), exec i s = .next t → st ≠ .ok →
    t.outbox = s.outbox ++ [⟨st, []⟩] →
    ∃ u, exec i t = .next u ∧ u.SameRegisters t ∧
      u.outbox = t.outbox ++ [⟨if i = .ilvEnd ∨ i = .mapEnd then .ok else st, []⟩]

/-- The operations that may be repeated (R33): doing one again gives the same response and changes no
register. -/
def Obligations.RepeatableOperations : Prop :=
  ∀ (i : Instr) (s t : State),
    ((∃ seed, i = .scrSeed seed) ∨ i = .encClr ∨ (∃ r, i = .punStart r) ∨ i = .pltStart ∨ i = .crcInit ∨
      i = .crcFin ∨ i = .iftXform ∨ (∃ f, i = .cpgExt f) ∨ (∃ p, i = .pltInsp p) ∨
      ((i = .ilvEnd ∨ ∃ m, i = .ilvCfg m) ∧ s.ilv.fill = 0) ∨
      ((i = .mapEnd ∨ ∃ m, i = .mapCfg m) ∧ s.map.fill = 0)) →
    exec i s = .next t →
    ∃ (u : State) (r : Response), exec i t = .next u ∧ u.SameRegisters t ∧
      t.outbox = s.outbox ++ [r] ∧ u.outbox = t.outbox ++ [r]

/-! ## SCR -/

/-- SCR.SEED (R62), for every seed, 0 among them; with imm bit 7 set the word is illegal. -/
def Obligations.ScrSeedLoadsRegister : Prop :=
  ∀ (seed : BitVec 7) (s : State),
    OnlyWord (0x1000 ||| seed.setWidth 16) (.scrSeed seed) ∧
    decode (0x1080 ||| seed.setWidth 16) = .error .unusedImmBit ∧
    exec (.scrSeed seed) s = .next { s with scr := ⟨seed⟩, outbox := s.outbox ++ [⟨.ok, []⟩] }

/-- SCR.BIT (R63), with the register's move written on numbers: `((r << 1) | fb) & 0x7F`. -/
def Obligations.ScrBitXorsAndSteps : Prop :=
  ∀ (b : Bit) (s : State),
    OnlyWord (0x1100 ||| (BitVec.ofBool b).setWidth 16) (.scrBit b) ∧
    ∃ r' : BitVec 7,
      r'.toNat = (s.scr.lfsr.toNat <<< 1 ||| (s.scr.lfsr[6] ^^ s.scr.lfsr[3]).toNat) &&& 0x7F ∧
      exec (.scrBit b) s = .next { s with
        scr := ⟨r'⟩
        outbox := s.outbox ++ [⟨.ok, [.bit (b ^^ (s.scr.lfsr[6] ^^ s.scr.lfsr[3]))]⟩] }

/-- SCR.GEN (R64), "identical to SCR.BIT 0". -/
def Obligations.ScrGenOutputsFeedback : Prop :=
  ∀ s : State,
    OnlyWord 0x1200 .scrGen ∧ exec .scrGen s = exec (.scrBit false) s ∧
    ∃ r' : BitVec 7,
      r'.toNat = (s.scr.lfsr.toNat <<< 1 ||| (s.scr.lfsr[6] ^^ s.scr.lfsr[3]).toNat) &&& 0x7F ∧
      exec .scrGen s = .next { s with
        scr := ⟨r'⟩, outbox := s.outbox ++ [⟨.ok, [.bit (s.scr.lfsr[6] ^^ s.scr.lfsr[3])]⟩] }

/-- Seeding and n times SCR.GEN answers the document's `lfsr(n, seed)` (R61, R56), which obeys
`out[n] = out[n-4] ^ out[n-7]`: the recurrence is the spec's own inference, marked "[derived ...]" in R61. -/
def Obligations.GenerateRunIsLfsr : Prop :=
  ∀ (n : Nat) (seed : BitVec 7) (s : State),
    (∃ t, execAll (expandLfsr n seed) s = .next t ∧
      t.outbox = s.outbox ++ ⟨.ok, []⟩ :: (lfsr n seed).map (fun b => ⟨.ok, [.bit b]⟩)) ∧
    (lfsr n seed).length = n ∧
    ∀ k, 7 ≤ k → k < n →
      (lfsr n seed).getD k false = ((lfsr n seed).getD (k - 4) false ^^ (lfsr n seed).getD (k - 7) false)

/-- From a non-zero register, 127 steps return to it and no smaller positive number does; every non-zero value
is met on the way; and `lfsr(254, s)` repeats after 127 outputs (R66). -/
def Obligations.ScramblerPeriod127 : Prop :=
  (∀ s : State, s.scr.lfsr ≠ 0 →
    (∃ t, execAll (List.replicate 127 .scrGen) s = .next t ∧ t.scr = s.scr) ∧
    (∀ k, 0 < k → k < 127 → ∃ t, execAll (List.replicate k .scrGen) s = .next t ∧ t.scr ≠ s.scr) ∧
    ∀ r : BitVec 7, r ≠ 0 → ∃ k t, k < 127 ∧ execAll (List.replicate k .scrGen) s = .next t ∧ t.scr.lfsr = r) ∧
  ∀ seed : BitVec 7, seed ≠ 0 → ∀ i, i < 127 →
    (lfsr 254 seed).getD (i + 127) false = (lfsr 254 seed).getD i false

/-- SCR.SEED and SCR.BIT for each bit answer `scramble(bits, seed)`, which has the length of its input and is
its own inverse (R65). -/
def Obligations.ScrambleRunIsSelfInverse : Prop :=
  ∀ (bits : List Bit) (seed : BitVec 7) (s : State),
    (∃ t, execAll (expandScramble bits seed) s = .next t ∧
      t.outbox = s.outbox ++ ⟨.ok, []⟩ :: (scramble bits seed).map (fun b => ⟨.ok, [.bit b]⟩)) ∧
    (scramble bits seed).length = bits.length ∧ scramble (scramble bits seed) seed = bits

/-- Seed 0 passes the data through, and the register stays 0 (R67). -/
def Obligations.ZeroSeedPassesThrough : Prop :=
  ∀ (bits : List Bit) (s : State),
    (∃ t, execAll (expandScramble bits 0) s = .next t ∧ t.scr.lfsr = 0 ∧
      t.outbox = s.outbox ++ ⟨.ok, []⟩ :: bits.map (fun b => ⟨.ok, [.bit b]⟩)) ∧
    lfsr bits.length 0 = List.replicate bits.length false

/-! ## ENC -/

/-- ENC.CLR (R72). That a sequence starts from zero is the spec's D7, from general knowledge (entry 16). -/
def Obligations.EncClrClearsHistory : Prop :=
  ∀ s : State, OnlyWord 0x2000 .encClr ∧
    exec .encClr s = .next { s with enc := ⟨0⟩, outbox := s.outbox ++ [⟨.ok, []⟩] }

/-- ENC.BIT (R73): the G1 parity, then the G2 parity, and the history's move on numbers. Which digit meets the
current bit is the spec's D6, from general knowledge (entry 16). -/
def Obligations.EncBitEncodesOneBit : Prop :=
  ∀ (b : Bit) (s : State),
    OnlyWord (0x2100 ||| (BitVec.ofBool b).setWidth 16) (.encBit b) ∧
    ∃ h' : BitVec 6, h'.toNat = (s.enc.hist.toNat <<< 1 ||| b.toNat) &&& 0x3F ∧
      exec (.encBit b) s = .next { s with
        enc := ⟨h'⟩
        outbox := s.outbox ++ [⟨.ok,
          [.bit (b ^^ s.enc.hist[1] ^^ s.enc.hist[2] ^^ s.enc.hist[4] ^^ s.enc.hist[5]),
           .bit (b ^^ s.enc.hist[0] ^^ s.enc.hist[1] ^^ s.enc.hist[2] ^^ s.enc.hist[5])]⟩] }

/-- ENC.CLR and ENC.BIT for each bit answer, two bits at a time, `encode(bits)` of R71, of exactly twice the
input's length (R74; the run is R56 with R72 and R73). Digit alignment and zero start are the spec's D6 and D7,
from general knowledge (entry 16). -/
def Obligations.EncodeRunIsSequenceFunction : Prop :=
  ∀ (bits : List Bit) (s : State),
    (∃ (t : State) (pairs : List (Bit × Bit)), execAll (expandEncode bits) s = .next t ∧
      t.outbox = s.outbox ++ ⟨.ok, []⟩ :: pairs.map (fun p => ⟨.ok, [.bit p.1, .bit p.2]⟩) ∧
      pairs.flatMap (fun p => [p.1, p.2]) = convEncode bits) ∧
    (convEncode bits).length = 2 * bits.length

/-- The unit is linear over bits: the runs of ENC.CLR and ENC.BIT on two bit lists and on their sum answer two
coded lists and their sum. It answers zeros to zeros, and the columns of G1 and G2 to a single 1 (R75, an inference
the spec marks as derived). Digit alignment and zero start are the spec's D6 and D7, from general knowledge
(entry 16). -/
def Obligations.EncoderIsLinear : Prop :=
  (∀ (a b : List Bit) (s : State), a.length = b.length → ∃ ca cb : List Bit,
    ca.length = 2 * a.length ∧ cb.length = 2 * b.length ∧
    Answers (expandEncode a) s (ca.map .bit) ∧ Answers (expandEncode b) s (cb.map .bit) ∧
    Answers (expandEncode (List.zipWith (fun x y => x ^^ y) a b)) s
      ((List.zipWith (fun x y => x ^^ y) ca cb).map .bit)) ∧
  (∀ (n : Nat) (s : State),
    Answers (expandEncode (List.replicate n false)) s ((List.replicate (2 * n) false).map .bit)) ∧
  ∀ (n : Nat) (s : State),
    Answers (expandEncode (true :: List.replicate (6 + n) false)) s
      (([true, true, false, true, true, true, true, true, false, false, true, false, true, true]
        ++ List.replicate (2 * n) false).map .bit)

/-! ## PUN -/

/-- PUN.START (R80), for the three rates and for the code that names none. -/
def Obligations.PunStartSelectsPattern : Prop :=
  ∀ s : State,
    (∀ r : CodingRate,
      OnlyWord (0x3000 ||| (CodingRate.toCode (some r)).setWidth 16) (.punStart (some r)) ∧
      exec (.punStart (some r)) s = .next { s with pun := ⟨r, 0⟩, outbox := s.outbox ++ [⟨.ok, []⟩] }) ∧
    OnlyWord 0x3003 (.punStart none) ∧
    exec (.punStart none) s = .next { s with outbox := s.outbox ++ [⟨.unsupportedRate, []⟩] }

/-- PUN.BIT (R81): a bit at a dropped phase answers the empty result with status OK. -/
def Obligations.PunBitKeepsOrDrops : Prop :=
  ∀ (b : Bit) (s : State), s.Legal →
    OnlyWord (0x3100 ||| (BitVec.ofBool b).setWidth 16) (.punBit b) ∧
    ∃ p' : BitVec 3, p'.toNat = (s.pun.phase.toNat + 1) % phaseBound s.pun.rate ∧
      exec (.punBit b) s = .next { s with
        pun := ⟨s.pun.rate, p'⟩
        outbox := s.outbox ++
          [⟨.ok, if s.pun.phase.toNat ∈ droppedPhases s.pun.rate then [] else [.bit b]⟩] }

/-- PUN.START and PUN.BIT for each bit answer `puncture(e, rate)` and leave the phase at the length modulo
the pattern's (R84); the length is R82's. -/
def Obligations.PunctureRunIsTiling : Prop :=
  ∀ (e : List Bit) (rate : CodingRate) (s : State),
    (∃ (t : State) (rs : List Response), execAll (expandPuncture e rate) s = .next t ∧
      t.pun.rate = rate ∧ t.pun.phase.toNat = e.length % phaseBound rate ∧
      t.outbox = s.outbox ++ ⟨.ok, []⟩ :: rs ∧ rs.length = e.length ∧ (∀ r ∈ rs, r.status = .ok) ∧
      rs.flatMap (fun r => r.dout) = (puncture e rate).map .bit) ∧
    (puncture e rate).length = puncturedLength rate e.length

/-! ## ILV -/

/-- ILV.CFG (R89), with no partial symbol held and with one. -/
def Obligations.IlvCfgSelectsModulation : Prop :=
  ∀ (m : Modulation) (s : State),
    OnlyWord (0x4000 ||| m.toCode.setWidth 16) (.ilvCfg m) ∧
    (s.ilv.fill = 0 → exec (.ilvCfg m) s
      = .next { s with ilv := { s.ilv with mod := m }, outbox := s.outbox ++ [⟨.ok, []⟩] }) ∧
    (s.ilv.fill ≠ 0 → exec (.ilvCfg m) s
      = .next { s with outbox := s.outbox ++ [⟨.malformedBitSequence, []⟩] })

/-- ILV.BIT (R90): the bit goes to its permuted place and nowhere else; the symbol is emitted with its last
bit, and only then. -/
def Obligations.IlvBitPlacesAndEmits : Prop :=
  ∀ (b : Bit) (s : State), s.Legal →
    OnlyWord (0x4100 ||| (BitVec.ofBool b).setWidth 16) (.ilvBit b) ∧
    ∃ buf' : Vector Bit 288,
      (∀ j, (h : j < 288) →
        buf'[j] = if j = interleaveIndex s.ilv.mod s.ilv.fill.toNat then b else s.ilv.buf[j]) ∧
      (s.ilv.fill.toNat + 1 = nCbps s.ilv.mod → exec (.ilvBit b) s = .next { s with
        ilv := ⟨s.ilv.mod, 0, buf'⟩
        outbox := s.outbox ++ [⟨.ok, (buf'.toList.take (nCbps s.ilv.mod)).map .bit⟩] }) ∧
      (s.ilv.fill.toNat + 1 ≠ nCbps s.ilv.mod → ∃ f' : BitVec 9, f'.toNat = s.ilv.fill.toNat + 1 ∧
        exec (.ilvBit b) s = .next { s with
          ilv := ⟨s.ilv.mod, f', buf'⟩, outbox := s.outbox ++ [⟨.ok, []⟩] })

/-- ILV.END (R91), with no partial symbol held and with one. -/
def Obligations.IlvEndChecksAndClears : Prop :=
  ∀ s : State, OnlyWord 0x4200 .ilvEnd ∧
    (s.ilv.fill = 0 → exec .ilvEnd s = .next { s with outbox := s.outbox ++ [⟨.ok, []⟩] }) ∧
    (s.ilv.fill ≠ 0 → exec .ilvEnd s = .next { s with
      ilv := { s.ilv with fill := 0 }, outbox := s.outbox ++ [⟨.malformedBitSequence, []⟩] })

/-- The index map is a permutation of a symbol's positions, given by the document's two formulas, and its
inverse recovers the symbol (R87, R88, R93). -/
def Obligations.InterleaverIsBijection : Prop :=
  ∀ m : Modulation,
    (∀ k, k < nCbps m → ∃ i s : Nat,
      s = max (nBpsc m / 2) 1 ∧ i = (nCbps m / 16) * (k % 16) + k / 16 ∧
      interleaveIndex m k = s * (i / s) + ((i + nCbps m - 16 * i / nCbps m) % s) ∧
      interleaveIndex m k < nCbps m) ∧
    (∀ j, j < nCbps m → ∃! k, k < nCbps m ∧ interleaveIndex m k = j) ∧
    ∀ bits : List Bit, bits.length = nCbps m → deinterleaveSymbol m (interleaveSymbol m bits) = bits

/-- ILV.CFG, ILV.BIT for every bit, ILV.END answer `interleave(bits, mod)`, whose symbol t has input bit k of
the symbol at position `J(mod, k)`. A length that is no whole number of symbols is reported at the END, after
the whole symbols (R92). Either way no partial symbol is left. -/
def Obligations.InterleaveRunIsSequenceFunction : Prop :=
  ∀ (m : Modulation) (bits : List Bit) (s : State), s.ilv.fill = 0 →
    (∃ (t : State) (rs : List Response), execAll (expandInterleave bits m) s = .next t ∧
      t.ilv.fill = 0 ∧ t.ilv.mod = m ∧ (∀ r ∈ rs, r.status = .ok) ∧ rs.length = 1 + bits.length ∧
      t.outbox = s.outbox ++ rs ++
        [⟨if bits.length % nCbps m = 0 then .ok else .malformedBitSequence, []⟩] ∧
      rs.flatMap (fun r => r.dout) = (interleave bits m).map .bit) ∧
    (interleave bits m).length = bits.length / nCbps m * nCbps m ∧
    ∀ t k, t < bits.length / nCbps m → k < nCbps m →
      (interleave bits m)[t * nCbps m + interleaveIndex m k]? = bits[t * nCbps m + k]?

/-! ## MAP -/

/-- MAP.CFG (R101), with no partial group held and with one. -/
def Obligations.MapCfgSelectsConstellation : Prop :=
  ∀ (m : Modulation) (s : State),
    OnlyWord (0x5000 ||| m.toCode.setWidth 16) (.mapCfg m) ∧
    (s.map.fill = 0 → exec (.mapCfg m) s
      = .next { s with map := { s.map with mod := m }, outbox := s.outbox ++ [⟨.ok, []⟩] }) ∧
    (s.map.fill ≠ 0 → exec (.mapCfg m) s
      = .next { s with outbox := s.outbox ++ [⟨.malformedBitSequence, []⟩] })

/-- MAP.BIT (R102): the bit joins the group; the group's point is emitted, through QUANT, with its last bit,
and only then. -/
def Obligations.MapBitCollectsAndEmits : Prop :=
  ∀ (b : Bit) (s : State), s.Legal →
    OnlyWord (0x5100 ||| (BitVec.ofBool b).setWidth 16) (.mapBit b) ∧
    ∃ acc' : Vector Bit 6,
      (∀ j, (h : j < 6) → acc'[j] = if j = s.map.fill.toNat then b else s.map.acc[j]) ∧
      (s.map.fill.toNat + 1 = nBpsc s.map.mod → exec (.mapBit b) s = .next { s with
        map := ⟨s.map.mod, 0, acc'⟩
        outbox := s.outbox ++ [⟨.ok, [.cplx (quantCplx (mapPoint s.map.mod acc'))]⟩] }) ∧
      (s.map.fill.toNat + 1 ≠ nBpsc s.map.mod → ∃ f' : BitVec 3, f'.toNat = s.map.fill.toNat + 1 ∧
        exec (.mapBit b) s = .next { s with
          map := ⟨s.map.mod, f', acc'⟩, outbox := s.outbox ++ [⟨.ok, []⟩] })

/-- MAP.END (R103), with no partial group held and with one. -/
def Obligations.MapEndChecksAndClears : Prop :=
  ∀ s : State, OnlyWord 0x5200 .mapEnd ∧
    (s.map.fill = 0 → exec .mapEnd s = .next { s with outbox := s.outbox ++ [⟨.ok, []⟩] }) ∧
    (s.map.fill ≠ 0 → exec .mapEnd s = .next { s with
      map := { s.map with fill := 0 }, outbox := s.outbox ++ [⟨.malformedBitSequence, []⟩] })

/-- The complex value of every point: K_MOD times the levels of the document's tables, the first half of the
group giving I and the second half Q (R97 to R100). The halves are the spec's D8, from general knowledge
(entry 16). -/
def Obligations.MapPointValues : Prop :=
  ([false, true].map level1 = [-1, 1] ∧
    [level2 false false, level2 false true, level2 true true, level2 true false] = [-3, -1, 1, 3] ∧
    [level3 false false false, level3 false false true, level3 false true true, level3 false true false,
      level3 true true false, level3 true true true, level3 true false true, level3 true false false]
      = [-7, -5, -3, -1, 1, 3, 5, 7]) ∧
  ∀ (ρ : Reading) (g : Vector Bit 6),
    (mapPoint .bpsk g).toComplex ρ = (level1 g[0] : ℂ) ∧
    (mapPoint .qpsk g).toComplex ρ
      = ((level1 g[0] : ℂ) + Complex.I * (level1 g[1] : ℂ)) / (Real.sqrt 2 : ℂ) ∧
    (mapPoint .qam16 g).toComplex ρ
      = ((level2 g[0] g[1] : ℂ) + Complex.I * (level2 g[2] g[3] : ℂ)) / (Real.sqrt 10 : ℂ) ∧
    (mapPoint .qam64 g).toComplex ρ
      = ((level3 g[0] g[1] g[2] : ℂ) + Complex.I * (level3 g[3] g[4] g[5] : ℂ)) / (Real.sqrt 42 : ℂ)

/-- The mean power over all groups is 1 for each modulation (R105). The sum is over the 64 groups of six
bits, in which every group of N_BPSC bits occurs equally often. -/
def Obligations.MeanPowerIsOne : Prop :=
  ∀ (ρ : Reading) (m : Modulation),
    (∑ n ∈ Finset.range 64, Complex.normSq ((mapPoint m (groupOfNat n)).toComplex ρ)) / 64 = 1

/-- MAP.CFG, MAP.BIT for every bit, MAP.END answer the points of `modulate(bits, mod)` through QUANT, the
point t of group t (R104). A length that is no whole number of groups is reported at the END, after the whole
groups (R103). Either way no partial group is left. -/
def Obligations.ModulateRunIsSequenceFunction : Prop :=
  ∀ (m : Modulation) (bits : List Bit) (s : State), s.map.fill = 0 →
    (∃ (t : State) (rs : List Response), execAll (expandModulate bits m) s = .next t ∧
      t.map.fill = 0 ∧ t.map.mod = m ∧ (∀ r ∈ rs, r.status = .ok) ∧ rs.length = 1 + bits.length ∧
      t.outbox = s.outbox ++ rs ++
        [⟨if bits.length % nBpsc m = 0 then .ok else .malformedBitSequence, []⟩] ∧
      rs.flatMap (fun r => r.dout) = (modulate bits m).map (fun z => .cplx (quantCplx z))) ∧
    (modulate bits m).length = bits.length / nBpsc m

/-! ## PLT -/

/-- PLT.START (R111). -/
def Obligations.PltStartLoadsOnes : Prop :=
  ∀ s : State, OnlyWord 0x6000 .pltStart ∧
    exec .pltStart s = .next { s with plt := ⟨127⟩, outbox := s.outbox ++ [⟨.ok, []⟩] }

/-- PLT.INS (R112): the polarity from the generator's feedback, the 52 values through QUANT, the generator's
move on numbers. -/
def Obligations.PltInsInsertsAndSteps : Prop :=
  ∀ s : State, s.din.length = 48 →
    OnlyWord 0x6100 .pltIns ∧
    ∃ (r' : BitVec 7) (pol : Polarity),
      r'.toNat = (s.plt.lfsr.toNat <<< 1 ||| (s.plt.lfsr[6] ^^ s.plt.lfsr[3]).toNat) &&& 0x7F ∧
      (pol = .plus ↔ (s.plt.lfsr[6] ^^ s.plt.lfsr[3]) = false) ∧
      exec .pltIns s = .next { s with
        plt := ⟨r'⟩
        outbox := s.outbox ++ [⟨.ok, (insertPilots s.din pol).map (fun z => .cplx (quantCplx z))⟩] }

/-- PLT.INSP (R113): the generator is neither read nor written. -/
def Obligations.PltInspInsertsOnly : Prop :=
  ∀ (pol : Polarity) (s : State), s.din.length = 48 →
    OnlyWord (0x6200 ||| (BitVec.ofBool pol.toBit).setWidth 16) (.pltInsp pol) ∧
    exec (.pltInsp pol) s = .next { s with
      outbox := s.outbox ++ [⟨.ok, (insertPilots s.din pol).map (fun z => .cplx (quantCplx z))⟩] }

/-- Where everything lands (R109): the 48 data symbols unchanged and in order at the data slots, and the four
pilots `[1, 1, 1, -1]` times the polarity at slots 5, 19, 32, 46. Any 48 complex values can be the data (R115). -/
def Obligations.PilotPlacement : Prop :=
  AnyOperand 48 ∧ ∀ (d : List Cplx) (pol : Polarity), d.length = 48 →
    (insertPilots d pol).length = 52 ∧
    (∀ n, n < 48 → (insertPilots d pol)[dataSlot n]? = d[n]?) ∧
    (∀ m ∈ [5, 19, 32], (insertPilots d pol)[m]? = some (Cplx.ofRat (if pol = .plus then 1 else -1))) ∧
    (insertPilots d pol)[46]? = some (Cplx.ofRat (if pol = .plus then -1 else 1))

/-- After PLT.START, the PLT.INS number t (from 0) answers what PLT.INSP answers for the polarity `p[t]`, and
the sequence has period 127 (R110, R112, R114). -/
def Obligations.PilotPolaritySequence : Prop :=
  (∀ (t : Nat) (s : State), s.din.length = 48 → ∃ u v : State,
    execAll (.pltStart :: List.replicate t .pltIns) s = .next u ∧ exec .pltIns u = .next v ∧
    exec (.pltInsp (polarityAt t)) u = .next { v with plt := u.plt }) ∧
  ∀ t, polarityAt (t + 127) = polarityAt t

/-! ## IFT -/

/-- IFT.XFORM (R120): the 64 samples, through QUANT, are exactly
`x[n] = (1/64) * sum over k of X[k] * exp (+j * 2 pi k n / 64)` with X the spectrum of R119, for every reading of
the host's reals, and "any 52 complex values are accepted". Scale and sign are the spec's D9, from general
knowledge (entry 16). -/
def Obligations.IftXformIsInverseTransform : Prop :=
  AnyOperand 52 ∧ ∀ s : State, s.din.length = 52 →
    OnlyWord 0x7000 .iftXform ∧
    ∃ x : List Cplx, x.length = 64 ∧
      exec .iftXform s = .next { s with
        outbox := s.outbox ++ [⟨.ok, x.map (fun z => .cplx (quantCplx z))⟩] } ∧
      ∀ (ρ : Reading) (n : ℕ), n < 64 → (x.getD n Cplx.zero).toComplex ρ
        = (1 / 64) * ∑ k ∈ Finset.range 64,
            binValue ρ s.din k * Complex.exp (Complex.I * (2 * Real.pi * k * n / 64))

/-! ## CPG -/

/-- CPG.EXT (R127) by the one formula of R126 and the window of R128: sample n is input sample
`(n + 64 - G) mod 64`, the first and the last halved, through QUANT. The clause on numbers says that halving is
halving, for every reading, and any 64 complex values can be the operand. The extra sample is the spec's D11
(entry 16). -/
def Obligations.CpgExtExtendsAndWindows : Prop :=
  AnyOperand 64 ∧ ∀ (field : FieldType) (s : State), s.din.length = 64 →
    OnlyWord (0x8000 ||| field.toCode.setWidth 16) (.cpgExt field) ∧
    ∃ y : List Cplx, y.length = extendedLength field ∧
      exec (.cpgExt field) s = .next { s with
        outbox := s.outbox ++ [⟨.ok, y.map (fun z => .cplx (quantCplx z))⟩] } ∧
      ∀ n, n < extendedLength field →
        y.getD n Cplx.zero
          = (if n = 0 ∨ n = extendedLength field - 1 then
              (s.din.getD ((n + 64 - guardLength field) % 64) Cplx.zero).scale (1 / 2)
            else s.din.getD ((n + 64 - guardLength field) % 64) Cplx.zero) ∧
        ∀ ρ : Reading, (y.getD n Cplx.zero).toComplex ρ
          = (if n = 0 ∨ n = extendedLength field - 1 then 1 / 2 else 1)
            * (s.din.getD ((n + 64 - guardLength field) % 64) Cplx.zero).toComplex ρ

/-! ## CRC -/

/-- CRC.INIT (R137). -/
def Obligations.CrcInitLoadsOnes : Prop :=
  ∀ s : State, OnlyWord 0x9000 .crcInit ∧
    exec .crcInit s = .next { s with crc := ⟨0xFFFFFFFF⟩, outbox := s.outbox ++ [⟨.ok, []⟩] }

/-- CRC.BYTE (R138). -/
def Obligations.CrcByteFoldsByte : Prop :=
  ∀ (b : Byte) (s : State),
    OnlyWord (0x9100 ||| b.setWidth 16) (.crcByte b) ∧
    exec (.crcByte b) s = .next { s with
      crc := ⟨crcTable.getD ((s.crc.reg ^^^ b.setWidth 32) &&& 0xFF).toNat 0 ^^^ (s.crc.reg >>> 8)⟩
      outbox := s.outbox ++ [⟨.ok, []⟩] }

/-- CRC.FIN (R139): four bytes, least significant first, whose value is the register's complement; the
register is not written. -/
def Obligations.CrcFinOutputsChecksum : Prop :=
  ∀ s : State, OnlyWord 0x9200 .crcFin ∧
    ∃ b0 b1 b2 b3 : Byte,
      b0.toNat + 256 * b1.toNat + 65536 * b2.toNat + 16777216 * b3.toNat
        = (s.crc.reg ^^^ 0xFFFFFFFF).toNat ∧
      exec .crcFin s = .next { s with
        outbox := s.outbox ++ [⟨.ok, [.byte b0, .byte b1, .byte b2, .byte b3]⟩] }

/-- The ROM has 256 entries, each the result of R135's eight steps. -/
def Obligations.CrcTableByEightSteps : Prop :=
  crcTable.length = 256 ∧ ∀ i, i < 256 → crcTable.getD i 0 = crcEntry i

/-- The table form of the byte update equals the bitwise form, for every register value and byte (R136). -/
def Obligations.CrcTableEqualsBitwise : Prop :=
  ∀ (c : BitVec 32) (b : Byte), crcUpdate c b = crcUpdateBitwise c b

/-- CRC.INIT, CRC.BYTE for every byte, CRC.FIN answer `crc32(m)`, computed bit by bit (R140, R136). -/
def Obligations.Crc32RunIsSequenceFunction : Prop :=
  ∀ (m : List Byte) (s : State), ∃ t, execAll (expandCrc32 m) s = .next t ∧
    t.outbox = s.outbox ++ ⟨.ok, []⟩ :: m.map (fun _ => ⟨.ok, []⟩) ++ [⟨.ok, (crc32 m).map .byte⟩]

/-- A message followed by the four bytes of its own checksum leaves 0xDEBB20E3 in the register, whatever the
message (95_test_vectors.md V17). -/
def Obligations.CrcResidueIsConstant : Prop :=
  ∀ (m : List Byte) (s : State), ∃ t,
    execAll (.crcInit :: (m ++ crc32 m).map .crcByte) s = .next t ∧ t.crc.reg = 0xDEBB20E3
end

