-- ==== Sys2Proof/Laws/Exact.lean ====
section
/-! SUPPORT. What the exact arithmetic does to the real and complex numbers it stands for. -/

namespace Sys2Proof

open Real in
/-- The angle of index m. -/
theorem cos_index_mod (m : ℕ) : cos (2 * π * (m % 64 : ℕ) / 64) = cos (2 * π * m / 64) := by
  conv_rhs => rw [← Nat.mod_add_div m 64]
  push_cast
  rw [show 2 * π * (((m % 64 : ℕ) : ℝ) + 64 * ((m / 64 : ℕ) : ℝ)) / 64
      = 2 * π * ((m % 64 : ℕ) : ℝ) / 64 + ((m / 64 : ℕ) : ℝ) * (2 * π) by ring]
  rw [cos_add_nat_mul_two_pi]

theorem Trig.coeff_zero (k : Nat) (h : k < 16) : Trig.zero.coeff[k] = 0 := by simp [Trig.zero]

@[simp] theorem Trig.toReal_zero : Trig.zero.toReal = 0 := by simp [Trig.toReal, Trig.coeff_zero]

theorem Trig.toReal_addAt (i : Nat) (h : i < 16) (c : Rat) (v : Trig) :
    (v.addAt i c).toReal = v.toReal + c * Real.cos (2 * Real.pi * i / 64) := by
  have hk : ∀ k : Fin 16, (((v.coeff.set i (v.coeff[i] + c) h)[k] : Rat) : ℝ) * Real.cos (2 * Real.pi * (k : ℕ) / 64)
      = (v.coeff[k] : ℝ) * Real.cos (2 * Real.pi * (k : ℕ) / 64)
        + if k = ⟨i, h⟩ then (c : ℝ) * Real.cos (2 * Real.pi * i / 64) else 0 := by
    intro k
    by_cases hki : k = ⟨i, h⟩
    · subst hki; simp [add_mul]
    · have : i ≠ k.val := fun e => hki (Fin.ext e.symm)
      simp [this, hki]
  simp only [Trig.toReal, Trig.addAt, h, dif_pos, hk, Finset.sum_add_distrib]
  simp

/-- Adding `c * cos (2 pi m / 64)` does so, for any m. -/
theorem Trig.toReal_addCos (m : Nat) (c : Rat) (v : Trig) :
    (v.addCos m c).toReal = v.toReal + c * Real.cos (2 * Real.pi * m / 64) := by
  have key : ∀ n : ℕ, n ≤ 32 → Real.cos (2 * Real.pi * n / 64) = Real.cos (2 * Real.pi * m / 64) →
      (if n < 16 then v.addAt n c else if n = 16 then v else v.addAt (32 - n) (-c)).toReal
        = v.toReal + c * Real.cos (2 * Real.pi * m / 64) := by
    intro n hn hcos
    rw [← hcos]
    split
    · rename_i h; rw [Trig.toReal_addAt n h]
    · split
      · rename_i _ h; subst h
        have : Real.cos (2 * Real.pi * ((16 : ℕ) : ℝ) / 64) = 0 := by
          rw [show 2 * Real.pi * ((16 : ℕ) : ℝ) / 64 = Real.pi / 2 by push_cast; ring]; exact Real.cos_pi_div_two
        rw [this]; simp
      · have h1 : 32 - n < 16 := by omega
        rw [Trig.toReal_addAt _ h1, Nat.cast_sub hn,
          show 2 * Real.pi * (((32 : ℕ) : ℝ) - n) / 64 = Real.pi - 2 * Real.pi * n / 64 by push_cast; ring,
          Real.cos_pi_sub]
        push_cast; ring
  unfold Trig.addCos
  simp only []
  split
  · rename_i h; exact key _ h (cos_index_mod m)
  · rename_i h
    have hlt : m % 64 < 64 := Nat.mod_lt _ (by norm_num)
    refine key _ (by omega) ?_
    rw [Nat.cast_sub hlt.le, ← cos_index_mod m,
      show 2 * Real.pi * (((64 : ℕ) : ℝ) - ((m % 64 : ℕ) : ℝ)) / 64 = 2 * Real.pi - 2 * Real.pi * ((m % 64 : ℕ) : ℝ) / 64 by
        push_cast; ring, Real.cos_two_pi_sub]

theorem Trig.toReal_foldl (F : Rat × Nat → Trig → Trig) (g : Rat × Nat → ℝ)
    (h : ∀ t a, (F t a).toReal = a.toReal + g t) (l : List (Rat × Nat)) (a : Trig) :
    (l.foldl (fun a t => F t a) a).toReal = a.toReal + (l.map g).sum := by
  induction l generalizing a with
  | nil => simp
  | cons t l ih => simp [ih, h, add_assoc]

theorem Trig.terms_sum (v : Trig) (g : Rat × Nat → ℝ) (h0 : ∀ k, g (0, k) = 0) :
    (v.terms.map g).sum = ∑ k : Fin 16, g (v.coeff[k], k) := by
  have hz : v.coeff.toList.zipIdx = List.ofFn (fun k : Fin 16 => (v.coeff[k], (k : ℕ))) := by
    apply List.ext_getElem
    · simp
    · intro i h1 h2
      rw [List.getElem_zipIdx, List.getElem_ofFn]
      simp
  have hf : ∀ l : List (Rat × Nat), ((l.filter (fun t => t.1.num ≠ 0)).map g).sum = (l.map g).sum := by
    intro l
    induction l with
    | nil => rfl
    | cons t l ih =>
      by_cases ht : t.1.num = 0
      · obtain ⟨c, k⟩ := t
        have hc : c = 0 := Rat.num_eq_zero.mp ht
        subst hc
        simp only [List.filter_cons, ne_eq, decide_not, List.map_cons, List.sum_cons, h0] at *
        simpa using ih
      · simp only [List.filter_cons, ne_eq, ht, not_false_eq_true, decide_true, if_true, List.map_cons,
          List.sum_cons, ih]
  rw [Trig.terms, hf, hz, List.map_ofFn, List.sum_ofFn]
  rfl

@[simp] theorem Trig.toReal_add (u v : Trig) : (u.add v).toReal = u.toReal + v.toReal := by
  unfold Trig.add
  have hg : ∀ l : List (Rat × Nat), (∀ t ∈ l, t.2 < 16) → ∀ a : Trig,
      (l.foldl (fun a t => a.addAt t.2 t.1) a).toReal
        = a.toReal + (l.map (fun t => (t.1 : ℝ) * Real.cos (2 * Real.pi * t.2 / 64))).sum := by
    intro l
    induction l with
    | nil => simp
    | cons t l ih =>
      intro hl a
      simp only [List.foldl_cons, List.map_cons, List.sum_cons]
      rw [ih (fun x hx => hl x (List.mem_cons_of_mem _ hx)), Trig.toReal_addAt _ (hl t List.mem_cons_self)]
      ring
  rw [hg v.terms, Trig.terms_sum v (fun t => (t.1 : ℝ) * Real.cos (2 * Real.pi * t.2 / 64)) (by simp)]
  · rfl
  · intro t ht
    simp only [Trig.terms, List.mem_filter] at ht
    have := List.snd_lt_of_mem_zipIdx ht.1
    simpa using this

@[simp] theorem Trig.toReal_scale (r : Rat) (v : Trig) : (v.scale r).toReal = r * v.toReal := by
  unfold Trig.scale
  have hg : ∀ l : List (Rat × Nat), (∀ t ∈ l, t.2 < 16) → ∀ a : Trig,
      (l.foldl (fun a t => a.addAt t.2 (r * t.1)) a).toReal
        = a.toReal + (l.map (fun t => (r : ℝ) * ((t.1 : ℝ) * Real.cos (2 * Real.pi * t.2 / 64)))).sum := by
    intro l
    induction l with
    | nil => simp
    | cons t l ih =>
      intro hl a
      simp only [List.foldl_cons, List.map_cons, List.sum_cons]
      rw [ih (fun x hx => hl x (List.mem_cons_of_mem _ hx)), Trig.toReal_addAt _ (hl t List.mem_cons_self)]
      push_cast; ring
  rw [hg v.terms, Trig.terms_sum v (fun t => (r : ℝ) * ((t.1 : ℝ) * Real.cos (2 * Real.pi * t.2 / 64))) (by simp)]
  · rw [Trig.toReal_zero, zero_add, Trig.toReal, Finset.mul_sum]
  · intro t ht
    simp only [Trig.terms, List.mem_filter] at ht
    have := List.snd_lt_of_mem_zipIdx ht.1
    simpa using this

/-- The product with a cosine is the product with a cosine. -/
@[simp] theorem Trig.toReal_mulCos (q : Nat) (v : Trig) :
    (v.mulCos q).toReal = Real.cos (2 * Real.pi * q / 64) * v.toReal := by
  unfold Trig.mulCos
  rw [Trig.toReal_foldl (fun t a => (a.addCos (t.2 + q) (t.1 / 2)).addCos (t.2 + (64 - q % 64)) (t.1 / 2))
    (fun t => (t.1 : ℝ) * Real.cos (2 * Real.pi * t.2 / 64) * Real.cos (2 * Real.pi * q / 64))]
  · rw [Trig.terms_sum _ _ (by simp), Trig.toReal_zero, zero_add, Trig.toReal, Finset.mul_sum]
    exact Finset.sum_congr rfl fun k _ => by ring
  · intro t a
    have hq : q % 64 < 64 := Nat.mod_lt _ (by norm_num)
    rw [Trig.toReal_addCos, Trig.toReal_addCos]
    have e1 : Real.cos (2 * Real.pi * ((t.2 + q : ℕ) : ℝ) / 64)
        = Real.cos (2 * Real.pi * t.2 / 64 + 2 * Real.pi * q / 64) := by
      congr 1; push_cast; ring
    have e2 : Real.cos (2 * Real.pi * ((t.2 + (64 - q % 64) : ℕ) : ℝ) / 64)
        = Real.cos (2 * Real.pi * t.2 / 64 - 2 * Real.pi * q / 64) := by
      have hqe : (q : ℝ) = ((q % 64 : ℕ) : ℝ) + 64 * ((q / 64 : ℕ) : ℝ) := by
        exact_mod_cast (Nat.mod_add_div q 64).symm
      rw [Nat.cast_add, Nat.cast_sub hq.le, hqe,
        show 2 * Real.pi * ((t.2 : ℝ) + (((64 : ℕ) : ℝ) - ((q % 64 : ℕ) : ℝ))) / 64
          = (2 * Real.pi * t.2 / 64 - 2 * Real.pi * (((q % 64 : ℕ) : ℝ) + 64 * ((q / 64 : ℕ) : ℝ)) / 64)
            + ((q / 64 + 1 : ℕ) : ℝ) * (2 * Real.pi) by push_cast; ring,
        Real.cos_add_nat_mul_two_pi]
    rw [e1, e2, Real.cos_add, Real.cos_sub]
    push_cast; ring

/-- Trimming changes no number. -/
@[simp] theorem givenSum_trimGiven (ρ : Reading) (i : ℕ) (vs : List Trig) :
    givenSum ρ i (trimGiven vs) = givenSum ρ i vs := by
  induction vs generalizing i with
  | nil => rfl
  | cons v vs ih =>
    have h := ih (i + 1)
    rw [trimGiven, givenSum]
    split
    · next hn =>
      rw [hn] at h
      split
      · next hv => simp [hv, givenSum, ← h]
      · rw [givenSum, h]
    · next hw => rw [hw] at h; rw [givenSum, h]

/-- Trimming trims all there is to trim. -/
@[simp] theorem trimGiven_idem (vs : List Trig) : trimGiven (trimGiven vs) = trimGiven vs := by
  induction vs with
  | nil => rfl
  | cons v vs ih =>
    rw [trimGiven]
    split
    · split
      · rfl
      · next hv => simp [trimGiven, hv]
    · next hw => rw [hw] at ih; rw [trimGiven, ih]

/-- The host's reals of an exact real are kept without zeros at the end. Every operation keeps it so. -/
def ExactReal.Canonical (x : ExactReal) : Prop := trimGiven x.given = x.given

theorem ExactReal.canonical_zero : ExactReal.zero.Canonical := rfl

theorem ExactReal.canonical_ofRat (r : Rat) : (ExactReal.ofRat r).Canonical := rfl

theorem ExactReal.canonical_add (x y : ExactReal) : (x.add y).Canonical := trimGiven_idem _

theorem ExactReal.canonical_scale (r : Rat) (x : ExactReal) : (x.scale r).Canonical := trimGiven_idem _

theorem ExactReal.canonical_mulCos (q : Nat) (x : ExactReal) : (x.mulCos q).Canonical := trimGiven_idem _

theorem ExactReal.canonical_kmodLevel (m : Modulation) (l : Int) : (Machine.kmodLevel m l).Canonical := by
  cases m <;> rfl

@[simp] theorem givenSum_addGiven (ρ : Reading) (i : ℕ) (us vs : List Trig) :
    givenSum ρ i (addGiven us vs) = givenSum ρ i us + givenSum ρ i vs := by
  induction us generalizing i vs with
  | nil => simp [addGiven, givenSum]
  | cons u us ih =>
    cases vs with
    | nil => simp [addGiven, givenSum]
    | cons v vs => simp only [addGiven, givenSum, ih, Trig.toReal_add]; ring

/-- A map that multiplies every combination of cosines multiplies the whole. -/
theorem givenSum_map (ρ : Reading) (f : Trig → Trig) (c : ℝ) (h : ∀ v, (f v).toReal = c * v.toReal) (i : ℕ)
    (vs : List Trig) : givenSum ρ i (vs.map f) = c * givenSum ρ i vs := by
  induction vs generalizing i with
  | nil => simp [givenSum]
  | cons v vs ih => simp only [List.map_cons, givenSum, ih, h]; ring

theorem givenSum_replicate_zero (ρ : Reading) (n i : ℕ) (vs : List Trig) :
    givenSum ρ i (List.replicate n Trig.zero ++ vs) = givenSum ρ (i + n) vs := by
  induction n generalizing i with
  | zero => rfl
  | succ n ih => simp [List.replicate_succ, givenSum, ih, Nat.add_assoc, Nat.add_comm 1]

@[simp] theorem ExactReal.toReal_zero (ρ : Reading) : ExactReal.zero.toReal ρ = 0 := by
  simp [ExactReal.toReal, ExactReal.zero, givenSum]

@[simp] theorem ExactReal.toReal_ofRat (ρ : Reading) (r : Rat) : (ExactReal.ofRat r).toReal ρ = r := by
  simp [ExactReal.toReal, ExactReal.ofRat, Trig.toReal_addAt, givenSum]

/-- `ofGiven i` stands for the host's real `g_i`. -/
@[simp] theorem ExactReal.toReal_ofGiven (ρ : Reading) (i : ℕ) : (ExactReal.ofGiven i).toReal ρ = ρ i := by
  simp [ExactReal.toReal, ExactReal.ofGiven, givenSum_replicate_zero, givenSum, Trig.toReal_addAt]

@[simp] theorem ExactReal.toReal_add (ρ : Reading) (x y : ExactReal) :
    (x.add y).toReal ρ = x.toReal ρ + y.toReal ρ := by
  simp [ExactReal.toReal, ExactReal.add]; ring

@[simp] theorem ExactReal.toReal_scale (ρ : Reading) (r : Rat) (x : ExactReal) :
    (x.scale r).toReal ρ = r * x.toReal ρ := by
  simp [ExactReal.toReal, ExactReal.scale, givenSum_map ρ (Trig.scale r) r (Trig.toReal_scale r)]; ring

@[simp] theorem ExactReal.toReal_mulCos (ρ : Reading) (q : Nat) (x : ExactReal) :
    (x.mulCos q).toReal ρ = Real.cos (2 * Real.pi * q / 64) * x.toReal ρ := by
  simp [ExactReal.toReal, ExactReal.mulCos, givenSum_map ρ (Trig.mulCos q) _ (Trig.toReal_mulCos q)]; ring

@[simp] theorem ExactReal.toReal_mulSin (ρ : Reading) (q : Nat) (x : ExactReal) :
    (x.mulSin q).toReal ρ = Real.sin (2 * Real.pi * q / 64) * x.toReal ρ := by
  rw [ExactReal.mulSin, ExactReal.toReal_mulCos]
  congr 1
  rw [show 2 * Real.pi * ((q + 48 : ℕ) : ℝ) / 64 = 2 * Real.pi * q / 64 - Real.pi / 2 + 2 * Real.pi by push_cast; ring,
    Real.cos_add_two_pi, Real.cos_sub_pi_div_two]

@[simp] theorem Cplx.toComplex_zero (ρ : Reading) : Cplx.zero.toComplex ρ = 0 := by
  apply Complex.ext <;> simp [Cplx.toComplex, Cplx.zero]

@[simp] theorem Cplx.toComplex_ofRat (ρ : Reading) (r : Rat) : (Cplx.ofRat r).toComplex ρ = (r : ℂ) := by
  apply Complex.ext <;> simp [Cplx.toComplex, Cplx.ofRat]

@[simp] theorem Cplx.toComplex_add (ρ : Reading) (x y : Cplx) :
    (x.add y).toComplex ρ = x.toComplex ρ + y.toComplex ρ := by
  apply Complex.ext <;> simp [Cplx.toComplex, Cplx.add]

@[simp] theorem Cplx.toComplex_scale (ρ : Reading) (r : Rat) (z : Cplx) :
    (z.scale r).toComplex ρ = (r : ℂ) * z.toComplex ρ := by
  apply Complex.ext <;> simp [Cplx.toComplex, Cplx.scale]

/-- The product with a twiddle factor is the product with `exp (2 pi j q / 64)`. -/
@[simp] theorem Cplx.toComplex_twiddle (ρ : Reading) (q : Nat) (z : Cplx) :
    (z.twiddle q).toComplex ρ = Complex.exp (2 * Real.pi * Complex.I * q / 64) * z.toComplex ρ := by
  have e : (2 * Real.pi * Complex.I * q / 64 : ℂ) = ((2 * Real.pi * q / 64 : ℝ) : ℂ) * Complex.I := by
    push_cast; ring
  rw [e, Complex.exp_mul_I, ← Complex.ofReal_cos, ← Complex.ofReal_sin]
  generalize hc : Real.cos (2 * Real.pi * q / 64) = c
  generalize hs : Real.sin (2 * Real.pi * q / 64) = w
  apply Complex.ext
  · simp only [Cplx.toComplex, Cplx.twiddle, ExactReal.toReal_add, ExactReal.toReal_mulCos, ExactReal.toReal_scale,
      ExactReal.toReal_mulSin, hc, hs]
    simp; ring
  · simp only [Cplx.toComplex, Cplx.twiddle, ExactReal.toReal_add, ExactReal.toReal_mulCos,
      ExactReal.toReal_mulSin, hc, hs]
    simp; ring

end Sys2Proof
end

