-- ==== Sys2Proof/Laws/State.lean ====
section
/-! SUPPORT. The small lemmas of the state's updates: what each field reads after each. -/

namespace Sys2Proof.Machine

@[simp] theorem State.setScr_scr (u : Scr) (s : State) : (s.setScr u).scr = u := rfl
@[simp] theorem State.setScr_enc (u : Scr) (s : State) : (s.setScr u).enc = s.enc := rfl
@[simp] theorem State.setScr_pun (u : Scr) (s : State) : (s.setScr u).pun = s.pun := rfl
@[simp] theorem State.setScr_ilv (u : Scr) (s : State) : (s.setScr u).ilv = s.ilv := rfl
@[simp] theorem State.setScr_map (u : Scr) (s : State) : (s.setScr u).map = s.map := rfl
@[simp] theorem State.setScr_plt (u : Scr) (s : State) : (s.setScr u).plt = s.plt := rfl
@[simp] theorem State.setScr_crc (u : Scr) (s : State) : (s.setScr u).crc = s.crc := rfl
@[simp] theorem State.setScr_inbox (u : Scr) (s : State) : (s.setScr u).inbox = s.inbox := rfl
@[simp] theorem State.setScr_din (u : Scr) (s : State) : (s.setScr u).din = s.din := rfl
@[simp] theorem State.setScr_outbox (u : Scr) (s : State) : (s.setScr u).outbox = s.outbox := rfl

@[simp] theorem State.setEnc_scr (u : Enc) (s : State) : (s.setEnc u).scr = s.scr := rfl
@[simp] theorem State.setEnc_enc (u : Enc) (s : State) : (s.setEnc u).enc = u := rfl
@[simp] theorem State.setEnc_pun (u : Enc) (s : State) : (s.setEnc u).pun = s.pun := rfl
@[simp] theorem State.setEnc_ilv (u : Enc) (s : State) : (s.setEnc u).ilv = s.ilv := rfl
@[simp] theorem State.setEnc_map (u : Enc) (s : State) : (s.setEnc u).map = s.map := rfl
@[simp] theorem State.setEnc_plt (u : Enc) (s : State) : (s.setEnc u).plt = s.plt := rfl
@[simp] theorem State.setEnc_crc (u : Enc) (s : State) : (s.setEnc u).crc = s.crc := rfl
@[simp] theorem State.setEnc_inbox (u : Enc) (s : State) : (s.setEnc u).inbox = s.inbox := rfl
@[simp] theorem State.setEnc_din (u : Enc) (s : State) : (s.setEnc u).din = s.din := rfl
@[simp] theorem State.setEnc_outbox (u : Enc) (s : State) : (s.setEnc u).outbox = s.outbox := rfl

@[simp] theorem State.setPun_scr (u : Pun) (s : State) : (s.setPun u).scr = s.scr := rfl
@[simp] theorem State.setPun_enc (u : Pun) (s : State) : (s.setPun u).enc = s.enc := rfl
@[simp] theorem State.setPun_pun (u : Pun) (s : State) : (s.setPun u).pun = u := rfl
@[simp] theorem State.setPun_ilv (u : Pun) (s : State) : (s.setPun u).ilv = s.ilv := rfl
@[simp] theorem State.setPun_map (u : Pun) (s : State) : (s.setPun u).map = s.map := rfl
@[simp] theorem State.setPun_plt (u : Pun) (s : State) : (s.setPun u).plt = s.plt := rfl
@[simp] theorem State.setPun_crc (u : Pun) (s : State) : (s.setPun u).crc = s.crc := rfl
@[simp] theorem State.setPun_inbox (u : Pun) (s : State) : (s.setPun u).inbox = s.inbox := rfl
@[simp] theorem State.setPun_din (u : Pun) (s : State) : (s.setPun u).din = s.din := rfl
@[simp] theorem State.setPun_outbox (u : Pun) (s : State) : (s.setPun u).outbox = s.outbox := rfl

@[simp] theorem State.setIlv_scr (u : Ilv) (s : State) : (s.setIlv u).scr = s.scr := rfl
@[simp] theorem State.setIlv_enc (u : Ilv) (s : State) : (s.setIlv u).enc = s.enc := rfl
@[simp] theorem State.setIlv_pun (u : Ilv) (s : State) : (s.setIlv u).pun = s.pun := rfl
@[simp] theorem State.setIlv_ilv (u : Ilv) (s : State) : (s.setIlv u).ilv = u := rfl
@[simp] theorem State.setIlv_map (u : Ilv) (s : State) : (s.setIlv u).map = s.map := rfl
@[simp] theorem State.setIlv_plt (u : Ilv) (s : State) : (s.setIlv u).plt = s.plt := rfl
@[simp] theorem State.setIlv_crc (u : Ilv) (s : State) : (s.setIlv u).crc = s.crc := rfl
@[simp] theorem State.setIlv_inbox (u : Ilv) (s : State) : (s.setIlv u).inbox = s.inbox := rfl
@[simp] theorem State.setIlv_din (u : Ilv) (s : State) : (s.setIlv u).din = s.din := rfl
@[simp] theorem State.setIlv_outbox (u : Ilv) (s : State) : (s.setIlv u).outbox = s.outbox := rfl

@[simp] theorem State.setMap_scr (u : Map) (s : State) : (s.setMap u).scr = s.scr := rfl
@[simp] theorem State.setMap_enc (u : Map) (s : State) : (s.setMap u).enc = s.enc := rfl
@[simp] theorem State.setMap_pun (u : Map) (s : State) : (s.setMap u).pun = s.pun := rfl
@[simp] theorem State.setMap_ilv (u : Map) (s : State) : (s.setMap u).ilv = s.ilv := rfl
@[simp] theorem State.setMap_map (u : Map) (s : State) : (s.setMap u).map = u := rfl
@[simp] theorem State.setMap_plt (u : Map) (s : State) : (s.setMap u).plt = s.plt := rfl
@[simp] theorem State.setMap_crc (u : Map) (s : State) : (s.setMap u).crc = s.crc := rfl
@[simp] theorem State.setMap_inbox (u : Map) (s : State) : (s.setMap u).inbox = s.inbox := rfl
@[simp] theorem State.setMap_din (u : Map) (s : State) : (s.setMap u).din = s.din := rfl
@[simp] theorem State.setMap_outbox (u : Map) (s : State) : (s.setMap u).outbox = s.outbox := rfl

@[simp] theorem State.setPlt_scr (u : Plt) (s : State) : (s.setPlt u).scr = s.scr := rfl
@[simp] theorem State.setPlt_enc (u : Plt) (s : State) : (s.setPlt u).enc = s.enc := rfl
@[simp] theorem State.setPlt_pun (u : Plt) (s : State) : (s.setPlt u).pun = s.pun := rfl
@[simp] theorem State.setPlt_ilv (u : Plt) (s : State) : (s.setPlt u).ilv = s.ilv := rfl
@[simp] theorem State.setPlt_map (u : Plt) (s : State) : (s.setPlt u).map = s.map := rfl
@[simp] theorem State.setPlt_plt (u : Plt) (s : State) : (s.setPlt u).plt = u := rfl
@[simp] theorem State.setPlt_crc (u : Plt) (s : State) : (s.setPlt u).crc = s.crc := rfl
@[simp] theorem State.setPlt_inbox (u : Plt) (s : State) : (s.setPlt u).inbox = s.inbox := rfl
@[simp] theorem State.setPlt_din (u : Plt) (s : State) : (s.setPlt u).din = s.din := rfl
@[simp] theorem State.setPlt_outbox (u : Plt) (s : State) : (s.setPlt u).outbox = s.outbox := rfl

@[simp] theorem State.setCrc_scr (u : Crc) (s : State) : (s.setCrc u).scr = s.scr := rfl
@[simp] theorem State.setCrc_enc (u : Crc) (s : State) : (s.setCrc u).enc = s.enc := rfl
@[simp] theorem State.setCrc_pun (u : Crc) (s : State) : (s.setCrc u).pun = s.pun := rfl
@[simp] theorem State.setCrc_ilv (u : Crc) (s : State) : (s.setCrc u).ilv = s.ilv := rfl
@[simp] theorem State.setCrc_map (u : Crc) (s : State) : (s.setCrc u).map = s.map := rfl
@[simp] theorem State.setCrc_plt (u : Crc) (s : State) : (s.setCrc u).plt = s.plt := rfl
@[simp] theorem State.setCrc_crc (u : Crc) (s : State) : (s.setCrc u).crc = u := rfl
@[simp] theorem State.setCrc_inbox (u : Crc) (s : State) : (s.setCrc u).inbox = s.inbox := rfl
@[simp] theorem State.setCrc_din (u : Crc) (s : State) : (s.setCrc u).din = s.din := rfl
@[simp] theorem State.setCrc_outbox (u : Crc) (s : State) : (s.setCrc u).outbox = s.outbox := rfl

@[simp] theorem State.respond_scr (st : Status) (d : List Datum) (s : State) : (s.respond st d).scr = s.scr := rfl
@[simp] theorem State.respond_enc (st : Status) (d : List Datum) (s : State) : (s.respond st d).enc = s.enc := rfl
@[simp] theorem State.respond_pun (st : Status) (d : List Datum) (s : State) : (s.respond st d).pun = s.pun := rfl
@[simp] theorem State.respond_ilv (st : Status) (d : List Datum) (s : State) : (s.respond st d).ilv = s.ilv := rfl
@[simp] theorem State.respond_map (st : Status) (d : List Datum) (s : State) : (s.respond st d).map = s.map := rfl
@[simp] theorem State.respond_plt (st : Status) (d : List Datum) (s : State) : (s.respond st d).plt = s.plt := rfl
@[simp] theorem State.respond_crc (st : Status) (d : List Datum) (s : State) : (s.respond st d).crc = s.crc := rfl
@[simp] theorem State.respond_inbox (st : Status) (d : List Datum) (s : State) : (s.respond st d).inbox = s.inbox := rfl
@[simp] theorem State.respond_din (st : Status) (d : List Datum) (s : State) : (s.respond st d).din = s.din := rfl
@[simp] theorem State.respond_outbox (st : Status) (d : List Datum) (s : State) : (s.respond st d).outbox = s.outbox ++ [⟨st, d⟩] := rfl

@[simp] theorem State.raise_scr (st : Status) (s : State) : (s.raise st).scr = s.scr := rfl
@[simp] theorem State.raise_enc (st : Status) (s : State) : (s.raise st).enc = s.enc := rfl
@[simp] theorem State.raise_pun (st : Status) (s : State) : (s.raise st).pun = s.pun := rfl
@[simp] theorem State.raise_ilv (st : Status) (s : State) : (s.raise st).ilv = s.ilv := rfl
@[simp] theorem State.raise_map (st : Status) (s : State) : (s.raise st).map = s.map := rfl
@[simp] theorem State.raise_plt (st : Status) (s : State) : (s.raise st).plt = s.plt := rfl
@[simp] theorem State.raise_crc (st : Status) (s : State) : (s.raise st).crc = s.crc := rfl
@[simp] theorem State.raise_inbox (st : Status) (s : State) : (s.raise st).inbox = s.inbox := rfl
@[simp] theorem State.raise_din (st : Status) (s : State) : (s.raise st).din = s.din := rfl
@[simp] theorem State.raise_outbox (st : Status) (s : State) : (s.raise st).outbox = s.outbox ++ [⟨st, []⟩] := rfl

@[simp] theorem State.accept_scr (r : Request) (rest : List Input) (s : State) : (s.accept r rest).scr = s.scr := rfl
@[simp] theorem State.accept_enc (r : Request) (rest : List Input) (s : State) : (s.accept r rest).enc = s.enc := rfl
@[simp] theorem State.accept_pun (r : Request) (rest : List Input) (s : State) : (s.accept r rest).pun = s.pun := rfl
@[simp] theorem State.accept_ilv (r : Request) (rest : List Input) (s : State) : (s.accept r rest).ilv = s.ilv := rfl
@[simp] theorem State.accept_map (r : Request) (rest : List Input) (s : State) : (s.accept r rest).map = s.map := rfl
@[simp] theorem State.accept_plt (r : Request) (rest : List Input) (s : State) : (s.accept r rest).plt = s.plt := rfl
@[simp] theorem State.accept_crc (r : Request) (rest : List Input) (s : State) : (s.accept r rest).crc = s.crc := rfl
@[simp] theorem State.accept_inbox (r : Request) (rest : List Input) (s : State) : (s.accept r rest).inbox = rest := rfl
@[simp] theorem State.accept_din (r : Request) (rest : List Input) (s : State) : (s.accept r rest).din = r.din := rfl
@[simp] theorem State.accept_outbox (r : Request) (rest : List Input) (s : State) : (s.accept r rest).outbox = s.outbox := rfl

@[simp] theorem State.resetBy_scr (rest : List Input) (s : State) : (s.resetBy rest).scr = State.reset.scr := rfl
@[simp] theorem State.resetBy_enc (rest : List Input) (s : State) : (s.resetBy rest).enc = State.reset.enc := rfl
@[simp] theorem State.resetBy_pun (rest : List Input) (s : State) : (s.resetBy rest).pun = State.reset.pun := rfl
@[simp] theorem State.resetBy_ilv (rest : List Input) (s : State) : (s.resetBy rest).ilv = State.reset.ilv := rfl
@[simp] theorem State.resetBy_map (rest : List Input) (s : State) : (s.resetBy rest).map = State.reset.map := rfl
@[simp] theorem State.resetBy_plt (rest : List Input) (s : State) : (s.resetBy rest).plt = State.reset.plt := rfl
@[simp] theorem State.resetBy_crc (rest : List Input) (s : State) : (s.resetBy rest).crc = State.reset.crc := rfl
@[simp] theorem State.resetBy_inbox (rest : List Input) (s : State) : (s.resetBy rest).inbox = rest := rfl
@[simp] theorem State.resetBy_din (rest : List Input) (s : State) : (s.resetBy rest).din = State.reset.din := rfl
@[simp] theorem State.resetBy_outbox (rest : List Input) (s : State) : (s.resetBy rest).outbox = s.outbox := rfl

@[simp] theorem State.present_scr (w : CmdWord) (s : State) : (s.present w).scr = s.scr := rfl
@[simp] theorem State.present_enc (w : CmdWord) (s : State) : (s.present w).enc = s.enc := rfl
@[simp] theorem State.present_pun (w : CmdWord) (s : State) : (s.present w).pun = s.pun := rfl
@[simp] theorem State.present_ilv (w : CmdWord) (s : State) : (s.present w).ilv = s.ilv := rfl
@[simp] theorem State.present_map (w : CmdWord) (s : State) : (s.present w).map = s.map := rfl
@[simp] theorem State.present_plt (w : CmdWord) (s : State) : (s.present w).plt = s.plt := rfl
@[simp] theorem State.present_crc (w : CmdWord) (s : State) : (s.present w).crc = s.crc := rfl
@[simp] theorem State.present_inbox (w : CmdWord) (s : State) : (s.present w).inbox = .request (requestOf w) :: s.inbox := rfl
@[simp] theorem State.present_din (w : CmdWord) (s : State) : (s.present w).din = s.din := rfl
@[simp] theorem State.present_outbox (w : CmdWord) (s : State) : (s.present w).outbox = s.outbox := rfl

end Sys2Proof.Machine
end

