-- ==== Sys2Proof/Laws/Ops.lean ====
section
/-! SUPPORT. One lemma for each shared operation that says once what it can do. -/

namespace Sys2Proof

/-- `QUANT` is idempotent (92_eei_decisions.md D10), whatever the implementation chose. -/
theorem Config.quant_idem (x : ExactReal) : Config.quant (Config.quant x) = Config.quant x := by
  unfold Config.quant
  by_cases h : Config.quantChoice (Config.quantChoice x) = Config.quantChoice x
  · simp [h]
  · simp [h]

namespace Machine

theorem quantCplx_idem (z : Cplx) : quantCplx (quantCplx z) = quantCplx z := by
  simp [quantCplx, Config.quant_idem]

@[simp] theorem answer_eq_next (d : List Datum) (s t : State) : answer d s = .next t ↔ t = s.respond .ok d := by
  simp [answer, eq_comm]

@[simp] theorem raising_eq_next (st : Status) (s t : State) : raising st s = .next t ↔ t = s.raise st := by
  simp [raising, eq_comm]

theorem operand_eq_some (n : Nat) (s : State) (d : List Cplx) :
    s.operand n = some d ↔ s.din.length = n ∧ d = s.din := by
  unfold State.operand; split <;> simp_all [eq_comm]

theorem operand_eq_none (n : Nat) (s : State) : s.operand n = none ↔ s.din.length ≠ n := by
  unfold State.operand; split <;> simp_all

theorem holdsPartial_iff (n : Nat) : holdsPartial n = true ↔ n ≠ 0 := by simp [holdsPartial]

/-- A fill register holds a partial block exactly when it is not 0. -/
@[simp] theorem holdsPartial_toNat_iff (n : Nat) (f : BitVec n) : holdsPartial f.toNat = true ↔ f ≠ 0 := by
  rw [holdsPartial_iff, ne_eq, ne_eq, not_iff_not, ← BitVec.toNat_inj]
  simp

/-- The LFSR step bit by bit. -/
theorem lfsrNext_bit (r : BitVec 7) (i : Nat) :
    (lfsrNext r).getLsbD i = if i = 0 then lfsrFeedback r else decide (i < 7) && r.getLsbD (i - 1) := by
  unfold lfsrNext
  generalize lfsrFeedback r = fb
  rcases i with _ | i
  · simp
  · simp

/-- The encoder history bit by bit. -/
theorem encoderNext_bit (b : Bit) (h : BitVec 6) (i : Nat) :
    (encoderNext b h).getLsbD i = if i = 0 then b else decide (i < 6) && h.getLsbD (i - 1) := by
  unfold encoderNext
  rcases i with _ | i
  · simp
  · simp

theorem phaseBound_eq (r : CodingRate) : phaseBound r = (puncturePattern r).length := by cases r <;> rfl

theorem punctureNext_toNat (r : CodingRate) (p : BitVec 3) :
    (punctureNext r p).toNat = (p.toNat + 1) % phaseBound r := by
  have hb : phaseBound r ≤ 6 ∧ 0 < phaseBound r := by cases r <;> decide
  have := Nat.mod_lt (p.toNat + 1) hb.2
  rw [punctureNext, ← phaseBound_eq, BitVec.toNat_ofNat, Nat.mod_eq_of_lt (a := (p.toNat + 1) % phaseBound r) (by omega)]

theorem insertFrom_length (sign : Int) (n m : Nat) (d : List Cplx) : (insertFrom sign n m d).length = n := by
  induction n generalizing m d with
  | zero => rfl
  | succ n ih => unfold insertFrom; split <;> simp [ih]

@[simp] theorem insertPilots_length (d : List Cplx) (pol : Polarity) : (insertPilots d pol).length = 52 :=
  insertFrom_length _ _ _ _

@[simp] theorem spectrum_length (f : List Cplx) : (spectrum f).length = 64 := by simp [spectrum]

@[simp] theorem inverseTransform_length (X : List Cplx) : (inverseTransform X).length = 64 := by
  simp [inverseTransform]

/-- The number of samples after extension (47_cyclic_prefix_generator.md R130). -/
theorem extend_length (x : List Cplx) (h : x.length = 64) (field : FieldType) :
    (extend x field).length = match field with | .stf => 161 | .ltf => 161 | .signal => 81 | .data => 81 := by
  cases field <;> simp [extend, h]

@[simp] theorem windowEdges_length (y : List Cplx) : (windowEdges y).length = y.length := by simp [windowEdges]

theorem nCbps_le (m : Modulation) : nCbps m ≤ 288 := by cases m <;> decide

theorem nCbps_pos (m : Modulation) : 0 < nCbps m := by cases m <;> decide

theorem nBpsc_le (m : Modulation) : nBpsc m ≤ 6 := by cases m <;> decide

theorem nBpsc_pos (m : Modulation) : 0 < nBpsc m := by cases m <;> decide

theorem interleaveIndex_lt (m : Modulation) (k : Nat) (h : k < nCbps m) : interleaveIndex m k < nCbps m := by
  have key : ∀ k < nCbps m, interleaveIndex m k < nCbps m := by cases m <;> decide +kernel
  exact key k h

theorem crcTable_length : crcTable.length = 256 := by decide +kernel

/-- What every operation does to the port: one response is added, and the port is otherwise untouched. -/
theorem exec_port (i : Instr) (s t : State) (h : exec i s = .next t) :
    ∃ r : Response, t.outbox = s.outbox ++ [r] ∧ t.inbox = s.inbox ∧ t.din = s.din := by
  cases i with
  | scrSeed seed => obtain rfl := (answer_eq_next _ _ _).mp h; exact ⟨_, rfl, rfl, rfl⟩
  | scrBit b => obtain rfl := (answer_eq_next _ _ _).mp h; exact ⟨_, rfl, rfl, rfl⟩
  | scrGen => obtain rfl := (answer_eq_next _ _ _).mp h; exact ⟨_, rfl, rfl, rfl⟩
  | encClr => obtain rfl := (answer_eq_next _ _ _).mp h; exact ⟨_, rfl, rfl, rfl⟩
  | encBit b => obtain rfl := (answer_eq_next _ _ _).mp h; exact ⟨_, rfl, rfl, rfl⟩
  | punStart rate =>
    cases rate with
    | none => obtain rfl := (raising_eq_next _ _ _).mp h; exact ⟨_, rfl, rfl, rfl⟩
    | some r => obtain rfl := (answer_eq_next _ _ _).mp h; exact ⟨_, rfl, rfl, rfl⟩
  | punBit b => obtain rfl := (answer_eq_next _ _ _).mp h; exact ⟨_, rfl, rfl, rfl⟩
  | ilvCfg mod =>
    simp only [exec, execIlvCfg] at h
    split at h
    · obtain rfl := (raising_eq_next _ _ _).mp h; exact ⟨_, rfl, rfl, rfl⟩
    · obtain rfl := (answer_eq_next _ _ _).mp h; exact ⟨_, rfl, rfl, rfl⟩
  | ilvBit b =>
    simp only [exec, execIlvBit] at h
    split at h <;> obtain rfl := (answer_eq_next _ _ _).mp h <;> exact ⟨_, rfl, rfl, rfl⟩
  | ilvEnd =>
    simp only [exec, execIlvEnd] at h
    split at h
    · obtain rfl := (raising_eq_next _ _ _).mp h; exact ⟨_, rfl, rfl, rfl⟩
    · obtain rfl := (answer_eq_next _ _ _).mp h; exact ⟨_, rfl, rfl, rfl⟩
  | mapCfg mod =>
    simp only [exec, execMapCfg] at h
    split at h
    · obtain rfl := (raising_eq_next _ _ _).mp h; exact ⟨_, rfl, rfl, rfl⟩
    · obtain rfl := (answer_eq_next _ _ _).mp h; exact ⟨_, rfl, rfl, rfl⟩
  | mapBit b =>
    simp only [exec, execMapBit] at h
    split at h <;> obtain rfl := (answer_eq_next _ _ _).mp h <;> exact ⟨_, rfl, rfl, rfl⟩
  | mapEnd =>
    simp only [exec, execMapEnd] at h
    split at h
    · obtain rfl := (raising_eq_next _ _ _).mp h; exact ⟨_, rfl, rfl, rfl⟩
    · obtain rfl := (answer_eq_next _ _ _).mp h; exact ⟨_, rfl, rfl, rfl⟩
  | pltStart => obtain rfl := (answer_eq_next _ _ _).mp h; exact ⟨_, rfl, rfl, rfl⟩
  | pltIns =>
    simp only [exec, execPltIns] at h
    split at h
    · cases h
    · obtain rfl := (answer_eq_next _ _ _).mp h; exact ⟨_, rfl, rfl, rfl⟩
  | pltInsp pol =>
    simp only [exec, execPltInsp] at h
    split at h
    · cases h
    · obtain rfl := (answer_eq_next _ _ _).mp h; exact ⟨_, rfl, rfl, rfl⟩
  | iftXform =>
    simp only [exec, execIftXform] at h
    split at h
    · cases h
    · obtain rfl := (answer_eq_next _ _ _).mp h; exact ⟨_, rfl, rfl, rfl⟩
  | cpgExt field =>
    simp only [exec, execCpgExt] at h
    split at h
    · cases h
    · obtain rfl := (answer_eq_next _ _ _).mp h; exact ⟨_, rfl, rfl, rfl⟩
  | crcInit => obtain rfl := (answer_eq_next _ _ _).mp h; exact ⟨_, rfl, rfl, rfl⟩
  | crcByte byte => obtain rfl := (answer_eq_next _ _ _).mp h; exact ⟨_, rfl, rfl, rfl⟩
  | crcFin => obtain rfl := (answer_eq_next _ _ _).mp h; exact ⟨_, rfl, rfl, rfl⟩

/-- What a step can do, once: nothing waiting, a reset, an illegal word, an operation, or a refusal. -/
theorem step_cases (s : State) :
    (s.inbox = [] ∧ step s = .next s) ∨
    (∃ p rest, s.inbox = .reset p :: rest ∧ step s = .next (s.resetBy rest)) ∨
    (∃ r rest e, s.inbox = .request r :: rest ∧ decode r.cmd = .error e ∧
      step s = .next ((s.accept r rest).raise .illegalCommand)) ∨
    (∃ r rest i, s.inbox = .request r :: rest ∧ decode r.cmd = .ok i ∧ i.wellFormedWith r.din = true ∧
      step s = exec i (s.accept r rest)) ∨
    (∃ r rest i, s.inbox = .request r :: rest ∧ decode r.cmd = .ok i ∧ i.wellFormedWith r.din = false ∧
      step s = .refused .operandLength) := by
  simp only [step, serve]
  rcases hin : s.inbox with _ | ⟨inp, rest⟩
  · exact .inl ⟨rfl, rfl⟩
  · rcases inp with r | p
    · cases hd : decode r.cmd with
      | error e => exact .inr (.inr (.inl ⟨r, rest, e, rfl, hd, by simp [performRequest, hd, raising]⟩))
      | ok i =>
        cases hw : i.wellFormedWith r.din with
        | true => exact .inr (.inr (.inr (.inl ⟨r, rest, i, rfl, hd, hw, by simp [performRequest, hd, hw]⟩)))
        | false => exact .inr (.inr (.inr (.inr ⟨r, rest, i, rfl, hd, hw, by simp [performRequest, hd, hw]⟩)))
    · exact .inr (.inl ⟨p, rest, rfl, rfl⟩)

end Machine

end Sys2Proof
end

