-- ==== Sys2Proof/Laws/PerInstr.lean ====
section
/-! SUPPORT. For every operation: its word matches its own row of 30_encoding.md R46 and no other row. -/

namespace Sys2Proof.Laws.TableRow

open Sys2Proof.Machine

/-- The `match` and `mask` of the row of an operation (R46). -/
def rowOf : Instr → CmdWord × CmdWord
  | .scrSeed _ => (0x1000, 0xFF80)
  | .scrBit _ => (0x1100, 0xFFFE)
  | .scrGen => (0x1200, 0xFFFF)
  | .encClr => (0x2000, 0xFFFF)
  | .encBit _ => (0x2100, 0xFFFE)
  | .punStart _ => (0x3000, 0xFFFC)
  | .punBit _ => (0x3100, 0xFFFE)
  | .ilvCfg _ => (0x4000, 0xFFFC)
  | .ilvBit _ => (0x4100, 0xFFFE)
  | .ilvEnd => (0x4200, 0xFFFF)
  | .mapCfg _ => (0x5000, 0xFFFC)
  | .mapBit _ => (0x5100, 0xFFFE)
  | .mapEnd => (0x5200, 0xFFFF)
  | .pltStart => (0x6000, 0xFFFF)
  | .pltIns => (0x6100, 0xFFFF)
  | .pltInsp _ => (0x6200, 0xFFFE)
  | .iftXform => (0x7000, 0xFFFF)
  | .cpgExt _ => (0x8000, 0xFFFC)
  | .crcInit => (0x9000, 0xFFFF)
  | .crcByte _ => (0x9100, 0xFF00)
  | .crcFin => (0x9200, 0xFFFF)

/-- The word of an operation matches its row, and of R46's 21 rows that one only. -/
def Statement (i : Instr) : Prop := opcodeRows.filter (matchesRow (encode i)) = [rowOf i]

theorem scrSeed (seed : BitVec 7) : Statement (.scrSeed seed) := by
  unfold Statement
  revert seed; decide

theorem scrBit (b : Bit) : Statement (.scrBit b) := by
  unfold Statement
  revert b; decide

theorem scrGen : Statement (.scrGen) := by
  unfold Statement
  decide

theorem encClr : Statement (.encClr) := by
  unfold Statement
  decide

theorem encBit (b : Bit) : Statement (.encBit b) := by
  unfold Statement
  revert b; decide

theorem punStart (rate : Option CodingRate) : Statement (.punStart rate) := by
  unfold Statement
  cases rate with
  | none => decide
  | some r => cases r <;> decide

theorem punBit (b : Bit) : Statement (.punBit b) := by
  unfold Statement
  revert b; decide

theorem ilvCfg (mod : Modulation) : Statement (.ilvCfg mod) := by
  unfold Statement
  cases mod <;> decide

theorem ilvBit (b : Bit) : Statement (.ilvBit b) := by
  unfold Statement
  revert b; decide

theorem ilvEnd : Statement (.ilvEnd) := by
  unfold Statement
  decide

theorem mapCfg (mod : Modulation) : Statement (.mapCfg mod) := by
  unfold Statement
  cases mod <;> decide

theorem mapBit (b : Bit) : Statement (.mapBit b) := by
  unfold Statement
  revert b; decide

theorem mapEnd : Statement (.mapEnd) := by
  unfold Statement
  decide

theorem pltStart : Statement (.pltStart) := by
  unfold Statement
  decide

theorem pltIns : Statement (.pltIns) := by
  unfold Statement
  decide

theorem pltInsp (pol : Polarity) : Statement (.pltInsp pol) := by
  unfold Statement
  cases pol <;> decide

theorem iftXform : Statement (.iftXform) := by
  unfold Statement
  decide

theorem cpgExt (field : FieldType) : Statement (.cpgExt field) := by
  unfold Statement
  cases field <;> decide

theorem crcInit : Statement (.crcInit) := by
  unfold Statement
  decide

theorem crcByte (byte : Byte) : Statement (.crcByte byte) := by
  unfold Statement
  revert byte; decide

theorem crcFin : Statement (.crcFin) := by
  unfold Statement
  decide

end Sys2Proof.Laws.TableRow
end

