-- ==== Sys2Proof/Laws/Reading.lean ====
section
/-! SUPPORT. The model shuts out no real number and no `QUANT` (entry 7): whatever reals the host brings, and
whatever idempotent function on the reals the implementation's `QUANT` is, some reading of the host's reals and
some value of `Config.quantChoice` are that machine's. -/

namespace Sys2Proof

/-- Any complex numbers can be presented as an operand. -/
theorem exists_reading (f : List ℂ) : ∃ (ρ : Reading) (d : List Cplx), d.map (Cplx.toComplex ρ) = f := by
  refine ⟨fun i => if i % 2 = 0 then (f.getD (i / 2) 0).re else (f.getD (i / 2) 0).im,
    (List.range f.length).map (fun n => ⟨ExactReal.ofGiven (2 * n), ExactReal.ofGiven (2 * n + 1)⟩), ?_⟩
  apply List.ext_getElem
  · simp
  · intro n h1 h2
    have e : (2 * n + 1) / 2 = n := by omega
    apply Complex.ext <;> simp [Cplx.toComplex, h2, e]

/-- The numbers a run can come to: what the host brings, the constants, and what the operations and `QUANT` make
of them. -/
inductive RunNumber where
  | host (n : ℕ)
  | one
  | sqrt5
  | sqrt21
  | add (a b : RunNumber)
  | cosine (r : Rat) (k : ℕ) (a : RunNumber)
  | quantized (a : RunNumber)
deriving Countable, Inhabited

/-- The real number of a `RunNumber`, for the host's numbers `z` and a `QUANT` `q`. -/
noncomputable def RunNumber.eval (z : ℕ → ℝ) (q : ℝ → ℝ) : RunNumber → ℝ
  | .host n => z n
  | .one => 1
  | .sqrt5 => Real.sqrt 5
  | .sqrt21 => Real.sqrt 21
  | .add a b => a.eval z q + b.eval z q
  | .cosine r k a => r * Real.cos (2 * Real.pi * k / 64) * a.eval z q
  | .quantized a => q (a.eval z q)

/-- A combination of cosines times a number of the run is a number of the run. -/
theorem RunNumber.exists_trig (z : ℕ → ℝ) (q : ℝ → ℝ) (v : Trig) (a : RunNumber) :
    ∃ b : RunNumber, b.eval z q = v.toReal * a.eval z q := by
  have key : ∀ S : Finset (Fin 16), ∃ b : RunNumber, b.eval z q
      = (∑ k ∈ S, (v.coeff[k] : ℝ) * Real.cos (2 * Real.pi * (k : ℕ) / 64)) * a.eval z q := by
    intro S
    induction S using Finset.induction_on with
    | empty => exact ⟨.cosine 0 0 a, by simp [RunNumber.eval]⟩
    | insert k S hk ih =>
      obtain ⟨b, hb⟩ := ih
      exact ⟨.add (.cosine v.coeff[k] k a) b, by rw [Finset.sum_insert hk]; simp only [RunNumber.eval, hb]; ring⟩
  exact key Finset.univ

/-- With the run's numbers as the host's reals, every exact real stands for a number of the run. -/
theorem RunNumber.exists_toReal (z : ℕ → ℝ) (q : ℝ → ℝ) (e : ℕ → RunNumber) (x : ExactReal) :
    ∃ b : RunNumber, b.eval z q = x.toReal (fun n => (e n).eval z q) := by
  have hg : ∀ (vs : List Trig) (i : ℕ), ∃ b : RunNumber, b.eval z q = givenSum (fun n => (e n).eval z q) i vs := by
    intro vs
    induction vs with
    | nil => exact fun i => ⟨.cosine 0 0 .one, by simp [RunNumber.eval, givenSum]⟩
    | cons v vs ih =>
      intro i
      obtain ⟨b, hb⟩ := ih (i + 1)
      obtain ⟨c, hc⟩ := RunNumber.exists_trig z q v (e i)
      exact ⟨.add c b, by simp only [RunNumber.eval, givenSum, hb, hc]; ring⟩
  obtain ⟨a, ha⟩ := RunNumber.exists_trig z q x.one .one
  obtain ⟨b, hb⟩ := RunNumber.exists_trig z q x.r5 .sqrt5
  obtain ⟨c, hc⟩ := RunNumber.exists_trig z q x.r21 .sqrt21
  obtain ⟨d, hd⟩ := hg x.given 0
  exact ⟨.add (.add (.add a b) c) d, by
    simp only [RunNumber.eval, ExactReal.toReal, ha, hb, hc, hd]; ring⟩

/-- For any reals the host brings and any idempotent `QUANT` on the reals there are a reading, under which each
of the host's reals has a name, and a value of `Config.quantChoice` that is that `QUANT`: it stands for its value,
it depends on the number alone, and it is idempotent, so that `Config.quant` is it. -/
theorem exists_quantChoice (z : ℕ → ℝ) (q : ℝ → ℝ) (hq : ∀ r, q (q r) = q r) :
    ∃ (ρ : Reading) (c : ExactReal → ExactReal),
      (∀ n, ∃ x : ExactReal, x.toReal ρ = z n) ∧ (∀ x, (c x).toReal ρ = q (x.toReal ρ)) ∧
      (∀ x y : ExactReal, x.toReal ρ = y.toReal ρ → c x = c y) ∧ ∀ x, c (c x) = c x := by
  obtain ⟨e, he⟩ := exists_surjective_nat RunNumber
  have hn : ∀ b : RunNumber, ∃ n, (e n).eval z q = b.eval z q := fun b => (he b).imp fun _ h => by rw [h]
  have hr : ∀ x : ExactReal, ∃ n, (e n).eval z q = q (x.toReal (fun n => (e n).eval z q)) := fun x => by
    obtain ⟨b, hb⟩ := RunNumber.exists_toReal z q e x
    obtain ⟨n, h⟩ := hn (.quantized b)
    exact ⟨n, by rw [h, RunNumber.eval, hb]⟩
  classical
  let name (r : ℝ) : ℕ := if h : ∃ n, (e n).eval z q = r then h.choose else 0
  have hname : ∀ r, (∃ n, (e n).eval z q = r) → (e (name r)).eval z q = r := fun r h => by
    simp only [name, dif_pos h]; exact h.choose_spec
  have hc : ∀ x : ExactReal, (ExactReal.ofGiven (name (q (x.toReal (fun n => (e n).eval z q))))).toReal
      (fun n => (e n).eval z q) = q (x.toReal (fun n => (e n).eval z q)) := fun x => by
    rw [ExactReal.toReal_ofGiven, hname _ (hr x)]
  refine ⟨fun n => (e n).eval z q,
    fun x => ExactReal.ofGiven (name (q (x.toReal (fun n => (e n).eval z q)))), fun n => ?_, hc, ?_, fun x => ?_⟩
  · obtain ⟨m, hm⟩ := hn (.host n)
    exact ⟨.ofGiven m, by rw [ExactReal.toReal_ofGiven, hm, RunNumber.eval]⟩
  · intro x y h
    simp only [h]
  · simp only [hc, hq]

end Sys2Proof
end

