-- ==== Sys2Proof/Tests/Slice0.lean ====
section
/-! SUPPORT. Tests of the model against the values that spec/ gives, and for every statement with hypotheses
a witness that meets them. Expected values come from the rule or vector named, never from the model. -/

namespace Sys2Proof.Tests

open Sys2Proof.Machine

/-- The state after a run of operations, if there is one. -/
def after (is : List Instr) (s : State) : Option State :=
  match execAll is s with
  | .next t => some t
  | .fault _ => none
  | .refused _ => none

/-- The state after one step, if there is one. -/
def stepped (s : State) : Option State :=
  match step s with
  | .next t => some t
  | .fault _ => none
  | .refused _ => none

/-- The responses after a run. -/
def responses (is : List Instr) (s : State) : Option (List Response) := (after is s).map (fun t => t.outbox)

/-- A string of binary digits as bits, the leftmost first (00_scope.md R9). -/
def bitsOf (s : String) : List Bit := s.toList.map (fun c => c == '1')

/-- Response OK with a result of bits. -/
def okBits (s : String) : Response := ⟨.ok, (bitsOf s).map .bit⟩

/-- The reset state with registers of one unit replaced, or with an operand. -/
def withScr (v : BitVec 7) : State := { State.reset with scr := ⟨v⟩ }
def withEnc (v : BitVec 6) : State := { State.reset with enc := ⟨v⟩ }
def withPun (r : CodingRate) (p : BitVec 3) : State := { State.reset with pun := ⟨r, p⟩ }
def withIlv (m : Modulation) (f : BitVec 9) : State := { State.reset with ilv := ⟨m, f, Vector.replicate 288 false⟩ }
def withMap (m : Modulation) (f : BitVec 3) (g : Vector Bit 6) : State := { State.reset with map := ⟨m, f, g⟩ }
def withDin (n : Nat) : State := { State.reset with din := List.replicate n Cplx.zero }
def withRequest (w : CmdWord) (n : Nat) : State :=
  { State.reset with inbox := [.request ⟨w, List.replicate n Cplx.zero⟩] }

/-! ## Decoding: words written out from 30_encoding.md R45, R46, as `unit op imm` -/

theorem test_decode_scrSeed : decode 0b0001000001011101 = .ok (.scrSeed 93) := by decide
theorem test_decode_scrSeed_127 : decode 0b0001000001111111 = .ok (.scrSeed 127) := by decide
theorem test_decode_scrBit : decode 0b0001000100000001 = .ok (.scrBit true) := by decide
theorem test_decode_scrGen : decode 0b0001001000000000 = .ok .scrGen := by decide
theorem test_decode_encClr : decode 0b0010000000000000 = .ok .encClr := by decide
theorem test_decode_encBit : decode 0b0010000100000001 = .ok (.encBit true) := by decide
theorem test_decode_punStart : decode 0b0011000000000000 = .ok (.punStart (some .half)) ∧
    decode 0b0011000000000001 = .ok (.punStart (some .twoThirds)) ∧
    decode 0b0011000000000010 = .ok (.punStart (some .threeQuarters)) ∧
    decode 0b0011000000000011 = .ok (.punStart none) := by decide
theorem test_decode_punBit : decode 0b0011000100000000 = .ok (.punBit false) := by decide
theorem test_decode_ilvCfg : decode 0b0100000000000000 = .ok (.ilvCfg .bpsk) ∧
    decode 0b0100000000000001 = .ok (.ilvCfg .qpsk) ∧ decode 0b0100000000000010 = .ok (.ilvCfg .qam16) ∧
    decode 0b0100000000000011 = .ok (.ilvCfg .qam64) := by decide
theorem test_decode_ilvBit : decode 0b0100000100000001 = .ok (.ilvBit true) := by decide
theorem test_decode_ilvEnd : decode 0b0100001000000000 = .ok .ilvEnd := by decide
theorem test_decode_mapCfg : decode 0b0101000000000000 = .ok (.mapCfg .bpsk) ∧
    decode 0b0101000000000001 = .ok (.mapCfg .qpsk) ∧ decode 0b0101000000000010 = .ok (.mapCfg .qam16) ∧
    decode 0b0101000000000011 = .ok (.mapCfg .qam64) := by decide
theorem test_decode_mapBit : decode 0b0101000100000001 = .ok (.mapBit true) := by decide
theorem test_decode_mapEnd : decode 0b0101001000000000 = .ok .mapEnd := by decide
theorem test_decode_pltStart : decode 0b0110000000000000 = .ok .pltStart := by decide
theorem test_decode_pltIns : decode 0b0110000100000000 = .ok .pltIns := by decide
theorem test_decode_pltInsp : decode 0b0110001000000000 = .ok (.pltInsp .plus) ∧
    decode 0b0110001000000001 = .ok (.pltInsp .minus) := by decide
theorem test_decode_iftXform : decode 0b0111000000000000 = .ok .iftXform := by decide
theorem test_decode_cpgExt : decode 0b1000000000000000 = .ok (.cpgExt .stf) ∧
    decode 0b1000000000000001 = .ok (.cpgExt .ltf) ∧ decode 0b1000000000000010 = .ok (.cpgExt .signal) ∧
    decode 0b1000000000000011 = .ok (.cpgExt .data) := by decide
theorem test_decode_crcInit : decode 0b1001000000000000 = .ok .crcInit := by decide
theorem test_decode_crcByte : decode 0b1001000101100001 = .ok (.crcByte 0x61) ∧
    decode 0b1001000111111111 = .ok (.crcByte 0xFF) := by decide
theorem test_decode_crcFin : decode 0b1001001000000000 = .ok .crcFin := by decide

/-- The illegal words of 95_test_vectors.md V25. -/
theorem test_decode_illegal :
    [0x0000, 0xFFFF, 0x1080, 0x1102, 0x1201, 0x1300, 0x2001, 0x2200, 0x3004, 0x3200, 0x4004, 0x4201, 0x5300,
      0x6001, 0x6101, 0x6202, 0x7001, 0x7100, 0x8004, 0x8100, 0x9001, 0x9201, 0x9300, 0xA000].all
      (fun w => (decodeTableWord 16 w).isNone) = true := by decide

/-- The three reasons of R50. -/
theorem test_decode_reasons : decode 0x0000 = .error .reservedUnit ∧ decode 0x7100 = .error .reservedOp ∧
    decode 0x8004 = .error .unusedImmBit := by decide

/-- Words of R46's example column through the encoder. -/
theorem test_encode : encode (.scrSeed 93) = 0x105D ∧ encode (.punStart (some .threeQuarters)) = 0x3002 ∧
    encode (.punStart none) = 0x3003 ∧ encode (.ilvCfg .qam16) = 0x4002 ∧ encode (.mapCfg .qam64) = 0x5003 ∧
    encode (.pltInsp .minus) = 0x6201 ∧ encode (.cpgExt .data) = 0x8003 ∧ encode (.crcByte 0x61) = 0x9161 := by
  decide

/-- Bits above `nbits` are 0, bit 0 is the least significant. -/
theorem test_decodeTableWord : decodeTableWord 16 0x9161 = some (.crcByte 0x61) ∧
    decodeTableWord 16 0x59161 = some (.crcByte 0x61) ∧ decodeTableWord 8 0x105D = none := by decide

/-! ## WellFormed: an ill-formed term for each operand length, which the check refuses -/

theorem test_ill_formed_pltIns : Instr.wellFormedWith .pltIns (List.replicate 47 Cplx.zero) = false := by decide
theorem test_ill_formed_pltInsp :
    Instr.wellFormedWith (.pltInsp .plus) (List.replicate 49 Cplx.zero) = false := by decide
theorem test_ill_formed_iftXform : Instr.wellFormedWith .iftXform (List.replicate 51 Cplx.zero) = false := by decide
theorem test_ill_formed_cpgExt :
    Instr.wellFormedWith (.cpgExt .data) (List.replicate 65 Cplx.zero) = false := by decide
theorem test_ill_formed_scrBit : Instr.wellFormedWith (.scrBit true) [Cplx.zero] = false := by decide
theorem test_well_formed : Instr.wellFormedWith .pltIns (List.replicate 48 Cplx.zero) = true ∧
    Instr.wellFormedWith .iftXform (List.replicate 52 Cplx.zero) = true ∧
    Instr.wellFormedWith (.cpgExt .stf) (List.replicate 64 Cplx.zero) = true ∧
    Instr.wellFormedWith .crcFin [] = true := by decide
theorem test_ill_formed_step : step (withRequest 0x6100 47) = .refused .operandLength ∧
    step (withRequest 0x1101 1) = .refused .operandLength := ⟨rfl, rfl⟩

/-! ## The operations, one step each -/

/-- R62's example. -/
theorem test_scrSeed : (after [.scrSeed 93] State.reset).map (fun t => (t.scr.lfsr, t.outbox))
    = some (0b1011101, [⟨.ok, []⟩]) := by decide
/-- R63's example. -/
theorem test_scrBit : (after [.scrBit true] (withScr 93)).map (fun t => (t.scr.lfsr, t.outbox))
    = some (58, [okBits "1"]) := by decide
/-- V1: the step from 58 to 117 puts out 1. -/
theorem test_scrBit_feedback : (after [.scrBit true] (withScr 58)).map (fun t => (t.scr.lfsr, t.outbox))
    = some (117, [okBits "0"]) := by decide
/-- R64's example. -/
theorem test_scrGen : (after [.scrGen] (withScr 127)).map (fun t => (t.scr.lfsr, t.outbox))
    = some (126, [okBits "0"]) := by decide
/-- R72's example. -/
theorem test_encClr : (after [.encClr] (withEnc 63)).map (fun t => t.enc.hist) = some 0 := by decide
/-- The last bit of R73's example: the history after 1, 0, 1. -/
theorem test_encBit : (after [.encBit true] (withEnc 0b000101)).map (fun t => (t.enc.hist, t.outbox))
    = some (11, [okBits "01"]) := by decide
/-- V8: the eighth 1 of eight. -/
theorem test_encBit_full : (after [.encBit true] (withEnc 63)).map (fun t => (t.enc.hist, t.outbox))
    = some (63, [okBits "11"]) := by decide
/-- R80's example, in the middle of a stream. -/
theorem test_punStart : (after [.punStart (some .threeQuarters)] (withPun .twoThirds 2)).map
    (fun t => (t.pun.rate, t.pun.phase)) = some (.threeQuarters, 0) := by decide
/-- V11's last line: rate and phase are kept. -/
theorem test_punStart_none : (after [.punStart none] (withPun .twoThirds 2)).map
    (fun t => (t.pun.rate, t.pun.phase, t.outbox)) = some (.twoThirds, 2, [⟨.unsupportedRate, []⟩]) := by decide
/-- R81's example. -/
theorem test_punBit_dropped : (after [.punBit true] (withPun .threeQuarters 3)).map
    (fun t => (t.pun.phase, t.outbox)) = some (4, [⟨.ok, []⟩]) := by decide
/-- R79: the last position of the rate 3/4 pattern is kept, and the phase starts again. -/
theorem test_punBit_wraps : (after [.punBit true] (withPun .threeQuarters 5)).map
    (fun t => (t.pun.phase, t.outbox)) = some (0, [okBits "1"]) := by decide
/-- R89's example. -/
theorem test_ilvCfg : (after [.ilvCfg .qam16] State.reset).map (fun t => (t.ilv.mod, nCbps t.ilv.mod))
    = some (.qam16, 192) := by decide
/-- Request 16 of program P6. -/
theorem test_ilvCfg_partial : (after [.ilvCfg .bpsk] (withIlv .qam64 1)).map
    (fun t => (t.ilv.mod, t.ilv.fill, t.outbox)) = some (.qam64, 1, [⟨.malformedBitSequence, []⟩]) := by decide
/-- R90's example. -/
theorem test_ilvBit : (after [.ilvBit true] (withIlv .bpsk 1)).map
    (fun t => (t.ilv.buf[3], t.ilv.fill, t.outbox)) = some (true, 2, [⟨.ok, []⟩]) := by decide +kernel
/-- V12: the last bit of the first symbol, 16 ones and then zeros. The first 16 bits stand in the buffer. -/
theorem test_ilvBit_emits :
    (after [.ilvBit false] { State.reset with
      ilv := ⟨.bpsk, 47, Vector.ofFn (fun j : Fin 288 => j.val % 3 == 0 && j.val < 48)⟩ }).map
      (fun t => (t.ilv.fill, t.outbox))
    = some (0, [okBits "100100100100100100100100100100100100100100100100"]) := by decide +kernel
/-- R91's example. -/
theorem test_ilvEnd_partial : (after [.ilvEnd] (withIlv .bpsk 2)).map (fun t => (t.ilv.fill, t.outbox))
    = some (0, [⟨.malformedBitSequence, []⟩]) := by decide
/-- V27. -/
theorem test_ilvEnd : responses [.ilvEnd] State.reset = some [⟨.ok, []⟩] := by decide
/-- R94: entries of the four maps. -/
theorem test_interleaveIndex :
    [1, 17, 47].map (interleaveIndex .bpsk) = [3, 4, 47] ∧ [1, 40, 95].map (interleaveIndex .qpsk) = [6, 50, 95] ∧
    [1, 17, 100, 191].map (interleaveIndex .qam16) = [13, 12, 54, 190] ∧
    [1, 17, 47, 150, 287].map (interleaveIndex .qam64) = [20, 18, 272, 117, 287] := by decide
/-- R101's example. -/
theorem test_mapCfg : (after [.mapCfg .qam64] State.reset).map (fun t => t.map.mod) = some .qam64 := by decide
/-- Request 5 of program P6. -/
theorem test_mapCfg_partial : (after [.mapCfg .bpsk] (withMap .qpsk 1 (Vector.replicate 6 true))).map
    (fun t => (t.map.mod, t.map.fill, t.outbox)) = some (.qpsk, 1, [⟨.malformedBitSequence, []⟩]) := by decide
/-- R102: the first bit of a 16-QAM group. -/
theorem test_mapBit : (after [.mapBit true] (withMap .qam16 0 (Vector.replicate 6 false))).map
    (fun t => (t.map.acc[0], t.map.fill, t.outbox)) = some (true, 1, [⟨.ok, []⟩]) := by decide
/-- R102's example: the group 1, 0, 0, 1 gives levels 3 and -1. -/
theorem test_mapBit_emits : responses [.mapBit true] (withMap .qam16 3 #v[true, false, false, false, true, true])
    = some [⟨.ok, [.cplx (quantCplx ⟨kmodLevel .qam16 3, kmodLevel .qam16 (-1)⟩)]⟩] := rfl
/-- V18: 64-QAM group 011011, and the 16-QAM group 0010. -/
theorem test_levels : levelI .qam64 #v[false, true, true, false, true, true] = -3 ∧
    levelQ .qam64 #v[false, true, true, false, true, true] = -3 ∧
    levelI .qam16 #v[false, false, true, false, false, false] = -3 ∧
    levelQ .qam16 #v[false, false, true, false, false, false] = 3 := by decide
/-- R103's example. -/
theorem test_mapEnd_partial : (after [.mapEnd] (withMap .qpsk 1 (Vector.replicate 6 true))).map
    (fun t => (t.map.fill, t.outbox)) = some (0, [⟨.malformedBitSequence, []⟩]) := by decide
/-- V27. -/
theorem test_mapEnd : responses [.mapEnd] State.reset = some [⟨.ok, []⟩] := by decide
/-- R111's example. -/
theorem test_pltStart : (after [.pltStart] { State.reset with plt := ⟨5⟩ }).map (fun t => t.plt.lfsr)
    = some 0b1111111 := by decide
/-- R112's example: straight after PLT.START the polarity is +1 and 126 is left. -/
theorem test_pltIns : exec .pltIns (withDin 48) = .next { withDin 48 with
    plt := ⟨126⟩
    outbox := [⟨.ok, cplxResult (insertPilots (List.replicate 48 Cplx.zero) .plus)⟩] } := rfl
/-- R113: the generator is not written. -/
theorem test_pltInsp : exec (.pltInsp .minus) (withDin 48) = .next { withDin 48 with
    outbox := [⟨.ok, cplxResult (insertPilots (List.replicate 48 Cplx.zero) .minus)⟩] } := rfl
/-- R116's worked placement. -/
theorem test_insertPilots :
    [4, 5, 6, 18, 19, 20, 31, 32, 33, 45, 46, 47, 51].map
      (fun m => (insertPilots ((List.range 48).map (fun n => Cplx.ofRat (n : Rat))) .minus)[m]?)
    = [4, -1, 5, 17, -1, 18, 29, -1, 30, 42, 1, 43, 47].map (fun r => some (Cplx.ofRat r)) := by decide +kernel
/-- V23, slot 26 set: samples 0, 16, 32 and 48. -/
theorem test_iftXform_bin1 :
    [0, 16, 32, 48].map (inverseSample (spectrum ((List.replicate 52 Cplx.zero).set 26 (Cplx.ofRat 1))))
    = [Cplx.ofRat (1 / 64), ⟨ExactReal.zero, ExactReal.ofRat (1 / 64)⟩, Cplx.ofRat (-1 / 64),
        ⟨ExactReal.zero, ExactReal.ofRat (-1 / 64)⟩] := by decide +kernel
/-- V23, slot 25 set (bin 63): sample 16; slot 0 set (bin 38): sample 32. -/
theorem test_iftXform_negative :
    inverseSample (spectrum ((List.replicate 52 Cplx.zero).set 25 (Cplx.ofRat 1))) 16
      = ⟨ExactReal.zero, ExactReal.ofRat (-1 / 64)⟩ ∧
    inverseSample (spectrum ((List.replicate 52 Cplx.zero).set 0 (Cplx.ofRat 1))) 32 = Cplx.ofRat (1 / 64) := by
  decide +kernel
/-- V23's linearity with an operand that is any real number of the host: a times slot 26 gives `a*j/64` at 16;
the same real at slots 26 and 25 cancels there. -/
theorem test_iftXform_given :
    inverseSample (spectrum ((List.replicate 52 Cplx.zero).set 26 ⟨ExactReal.ofGiven 3, ExactReal.zero⟩)) 16
      = ⟨ExactReal.zero, (ExactReal.ofGiven 3).scale (1 / 64)⟩ ∧
    inverseSample (spectrum (((List.replicate 52 Cplx.zero).set 26 ⟨ExactReal.ofGiven 3, ExactReal.zero⟩).set 25
      ⟨ExactReal.ofGiven 3, ExactReal.zero⟩)) 16 = Cplx.zero := by decide +kernel
/-- V24's samples: n - j*n at n. -/
def ramp : List Cplx := (List.range 64).map (fun n => ⟨ExactReal.ofRat (n : Rat), ExactReal.ofRat (-(n : Rat))⟩)
/-- V24, LTF: length and the samples 0, 1, 31, 32, 80, 159, 160. -/
theorem test_cpgExt_ltf : (windowEdges (extend ramp .ltf)).length = 161 ∧
    [0, 1, 31, 32, 80, 159, 160].map (fun n => (windowEdges (extend ramp .ltf))[n]?)
      = [16, 33, 63, 0, 48, 63, 0].map (fun r : Rat => some ⟨ExactReal.ofRat r, ExactReal.ofRat (-r)⟩) := by
  decide +kernel
/-- V24, STF and DATA: first, second and last samples, and the lengths. -/
theorem test_cpgExt_stf_data : (windowEdges (extend ramp .stf)).length = 161 ∧
    [0, 1, 64, 160].map (fun n => (windowEdges (extend ramp .stf))[n]?)
      = [0, 1, 0, 16].map (fun r : Rat => some ⟨ExactReal.ofRat r, ExactReal.ofRat (-r)⟩) ∧
    (windowEdges (extend ramp .data)).length = 81 ∧
    [0, 1, 15, 16, 79, 80].map (fun n => (windowEdges (extend ramp .data))[n]?)
      = [24, 49, 63, 0, 63, 0].map (fun r : Rat => some ⟨ExactReal.ofRat r, ExactReal.ofRat (-r)⟩) := by
  decide +kernel
/-- R137. -/
theorem test_crcInit : (after [.crcInit] { State.reset with crc := ⟨7⟩ }).map (fun t => t.crc.reg)
    = some 0xFFFFFFFF := by decide
/-- R138's example. -/
theorem test_crcByte : (after [.crcByte 0x61] State.reset).map (fun t => (t.crc.reg, t.outbox))
    = some (0x174841BC, [⟨.ok, []⟩]) := by decide
/-- V14: the second byte of "123456789". -/
theorem test_crcByte_second : (after [.crcByte 0x32] { State.reset with crc := ⟨0x7C231048⟩ }).map
    (fun t => t.crc.reg) = some 0xB0ACBB32 := by decide
/-- R139's example. -/
theorem test_crcFin : (after [.crcFin] { State.reset with crc := ⟨0x174841BC⟩ }).map
    (fun t => (t.crc.reg, t.outbox))
    = some (0x174841BC, [⟨.ok, [.byte 0x43, .byte 0xBE, .byte 0xB7, .byte 0xE8]⟩]) := by decide
/-- R135's spot checks. -/
theorem test_crcTable : [0, 1, 2, 8, 16, 128, 158, 255].map (fun i => crcTable.getD i 0)
    = [0, 0x77073096, 0xEE0E612C, 0x0EDB8832, 0x1DB71064, 0xEDB88320, 0x17B7BE43, 0x2D02EF8D] := by decide
/-- The status codes of R160. -/
theorem test_status_codes : [Status.ok, .unsupportedRate, .invalidLength, .malformedBitSequence,
    .illegalCommand].map Status.code = [0, 1, 2, 3, 4] := by decide

/-! ## The sequence functions -/

/-- V4 and V5. -/
theorem test_lfsr : lfsr 16 1 = bitsOf "0001001100010111" ∧ lfsr 16 64 = bitsOf "1000100110001011" ∧
    scramble (bitsOf "10110001") 93 = bitsOf "11011101" := by decide
/-- V8. -/
theorem test_convEncode : convEncode (bitsOf "1011") = bitsOf "11010001" ∧
    convEncode (bitsOf "11111111") = bitsOf "1110011010001111" := by decide
/-- V10. -/
theorem test_puncture : puncture (bitsOf "110100011001") .twoThirds = bitsOf "110000100" ∧
    puncture (bitsOf "110100011001") .threeQuarters = bitsOf "11000111" := by decide
/-- V12's BPSK symbol. -/
theorem test_interleave : interleave (bitsOf "100011000110001100011000110001100011000110001100") .bpsk
    = bitsOf "100000001011110100000001011110100000001011110100" := by decide
/-- V2's first polarities. -/
theorem test_polarityAt : (List.range 8).map polarityAt
    = [.plus, .plus, .plus, .plus, .minus, .minus, .minus, .plus] := by decide
/-- V14's output. -/
theorem test_crc32 : crc32 [0x31, 0x32, 0x33, 0x34, 0x35, 0x36, 0x37, 0x38, 0x39] = [0x26, 0x39, 0xF4, 0xCB] := by
  decide +kernel

/-! ## The port -/

/-- R161: an illegal word, with the responses before it kept. -/
theorem test_step_illegal : (stepped (withRequest 0x1080 0)).map (fun t => (t.scr, t.inbox, t.outbox))
    = some (State.reset.scr, [], [⟨.illegalCommand, []⟩]) := by decide
/-- R37: the first of two requests is performed first. -/
theorem test_step_order : (stepped { State.reset with
      inbox := [.request ⟨0x105D, []⟩, .request ⟨0x1101, []⟩] }).map (fun t => (t.scr.lfsr, t.inbox, t.outbox))
    = some (93, [.request ⟨0x1101, []⟩], [⟨.ok, []⟩]) := by decide
/-- R176: a reset, with the responses given before it kept. -/
theorem test_step_reset : (stepped { withScr 93 with
      inbox := [.reset (some ⟨0x1101, []⟩)], outbox := [⟨.ok, []⟩] }).map (fun t => (t.scr.lfsr, t.inbox, t.outbox))
    = some (0, [], [⟨.ok, []⟩]) := by decide
/-- V27 through the fetch word: ENC.BIT 1 right after reset. -/
theorem test_withFetchWord : (stepped (State.reset.withFetchWord 16 0x2101)).map (fun t => (t.enc.hist, t.outbox))
    = some (1, [okBits "11"]) := by decide
/-- A fetch word whose operation takes an operand runs too: 64 samples out of 52 zeros. -/
theorem test_withFetchWord_operand :
    (stepped (State.reset.withFetchWord 16 0x7000)).map (fun t => t.outbox.map (fun r => (r.status, r.dout.length)))
    = some [(.ok, 64)] := rfl

/-! ## Witnesses: states and operands that meet the hypotheses of the statements, clause by clause -/

theorem witness_ResetInputRestoresRegisters : ({ withScr 93 with
    inbox := [.reset (some ⟨0x1101, []⟩), .reset none, .request ⟨0x1200, []⟩] } : State).inbox
    = .reset (some ⟨0x1101, []⟩) :: [.reset none, .request ⟨0x1200, []⟩] := rfl
theorem witness_IdleStepHoldsState : (withScr 93).inbox = [] := rfl
theorem witness_StepRunsDecodedInstruction :
    (withRequest 0x6100 48).inbox = .request ⟨0x6100, List.replicate 48 Cplx.zero⟩ :: [] ∧
    decode 0x6100 = .ok .pltIns ∧ Instr.wellFormedWith .pltIns (List.replicate 48 Cplx.zero) = true :=
  ⟨rfl, by decide, by decide⟩
theorem witness_IllegalWordAnswersIllegalCommand :
    (withRequest 0x1080 3).inbox = .request ⟨0x1080, List.replicate 3 Cplx.zero⟩ :: [] ∧
    ∀ row ∈ opcodeRows, matchesRow 0x1080 row = false :=
  ⟨rfl, by simp [opcodeRows, matchesRow]⟩
theorem witness_IllFormedRequestRefused :
    (withRequest 0x1200 1).inbox = .request ⟨0x1200, List.replicate 1 Cplx.zero⟩ :: [] ∧
    decode 0x1200 = .ok .scrGen ∧ (List.replicate 1 Cplx.zero).length ≠ Instr.dinLength .scrGen ∧
    (withDin 47).din.length ≠ 48 ∧ (withDin 49).din.length ≠ 48 ∧ (withDin 51).din.length ≠ 52 ∧
    (withDin 53).din.length ≠ 52 ∧ (withDin 63).din.length ≠ 64 ∧ (withDin 65).din.length ≠ 64 := by decide
theorem witness_EncodeDecodeRoundTrip : decode 0x91FF = .ok (.crcByte 0xFF) := by decide
theorem witness_StepKeepsRegistersLegal :
    let s : State := { withIlv .qam64 287 with inbox := [.request ⟨0x4101, []⟩] }
    s.Legal ∧ ∃ t, step s = .next t := ⟨by decide, _, rfl⟩
theorem witness_FormedRequestsAreAnswered : State.PortFormed { State.reset with
    inbox := [.request ⟨0x7000, List.replicate 52 Cplx.zero⟩, .reset none, .request ⟨0xFFFF, [Cplx.zero]⟩] } := by
  decide
theorem witness_UnitsShareNoState :
    let s : State := { withDin 48 with scr := ⟨3⟩ }
    State.AgreeOn .plt s (withDin 48) ∧ s.din = (withDin 48).din ∧ (∃ t, exec .pltIns s = .next t) ∧
      BlockUnit.crc ≠ Instr.unit .pltIns := ⟨rfl, rfl, ⟨_, rfl⟩, by decide⟩
theorem witness_OperationsOnOtherUnitsCommute :
    decode 0x6100 = .ok .pltIns ∧ decode 0x7000 = .ok .iftXform ∧
    Instr.wellFormedWith .pltIns (List.replicate 48 (Cplx.ofRat 1)) = true ∧
    Instr.wellFormedWith .iftXform (List.replicate 52 Cplx.zero) = true ∧
    Instr.unit .pltIns ≠ Instr.unit .iftXform ∧
    Instr.unit (.scrBit true) ≠ Instr.unit (.mapBit true) ∧
    ∃ t, execAll [.scrBit true, .mapBit true] (withScr 93) = .next t :=
  ⟨by decide, by decide, by decide, by decide, by decide, by decide, _, rfl⟩
/-- Also for `RaisingWritesNothingElse` and `ErrorRepeatsUnlessEnd`: the three shapes of raising. -/
theorem witness_StatusesByOperation :
    exec (.punStart none) State.reset = .next (State.reset.respond .unsupportedRate []) ∧
    exec (.ilvCfg .bpsk) (withIlv .bpsk 47) = .next ((withIlv .bpsk 47).respond .malformedBitSequence []) ∧
    exec .ilvEnd (withIlv .bpsk 1) = .next ((withIlv .bpsk 0).respond .malformedBitSequence []) ∧
    (∃ t, exec .mapEnd (withMap .qpsk 1 (Vector.replicate 6 true)) = .next t ∧
      t.outbox = [⟨.malformedBitSequence, []⟩]) ∧ Status.malformedBitSequence ≠ .ok :=
  ⟨rfl, rfl, rfl, ⟨_, rfl, rfl⟩, by decide⟩
theorem witness_RepeatableOperations :
    (∃ t, exec (.scrSeed 0) State.reset = .next t) ∧ (∃ t, exec .crcFin State.reset = .next t) ∧
    (∃ t, exec (.punStart none) State.reset = .next t) ∧ (∃ t, exec .encClr State.reset = .next t) ∧
    (∃ t, exec .pltStart State.reset = .next t) ∧ (∃ t, exec .crcInit State.reset = .next t) ∧
    (∃ t, exec (.pltInsp .minus) (withDin 48) = .next t) ∧ (∃ t, exec .iftXform (withDin 52) = .next t) ∧
    (∃ t, exec (.cpgExt .stf) (withDin 64) = .next t) ∧
    (State.reset.ilv.fill = 0 ∧ ∃ t, exec .ilvEnd State.reset = .next t) ∧
    (State.reset.map.fill = 0 ∧ ∃ t, exec (.mapCfg .qam64) State.reset = .next t) :=
  ⟨⟨_, rfl⟩, ⟨_, rfl⟩, ⟨_, rfl⟩, ⟨_, rfl⟩, ⟨_, rfl⟩, ⟨_, rfl⟩, ⟨_, rfl⟩, ⟨_, rfl⟩, ⟨_, rfl⟩,
    ⟨rfl, _, rfl⟩, ⟨rfl, _, rfl⟩⟩
theorem witness_GenerateRunIsLfsr : 7 ≤ 7 ∧ 7 < 8 := by decide
theorem witness_ScramblerPeriod127 : (withScr 1).scr.lfsr ≠ 0 ∧ (withScr 127).scr.lfsr ≠ 0 ∧
    (0 < 1 ∧ 1 < 127) ∧ (0 < 126 ∧ 126 < 127) ∧ (127 : BitVec 7) ≠ 0 := by decide
theorem witness_EncoderIsLinear : (bitsOf "1011").length = (bitsOf "0110").length := by decide
theorem witness_PunBitKeepsOrDrops : (withPun .half 0).Legal ∧ (withPun .twoThirds 3).Legal ∧
    (withPun .threeQuarters 0).Legal ∧ (withPun .threeQuarters 5).Legal := by decide
theorem witness_IlvCfgSelectsModulation : (withIlv .qam64 0).ilv.fill = 0 ∧ (withIlv .qam64 1).ilv.fill ≠ 0 ∧
    (withIlv .qam64 287).ilv.fill ≠ 0 := by decide
theorem witness_IlvBitPlacesAndEmits : (withIlv .bpsk 47).Legal ∧
    (withIlv .bpsk 47).ilv.fill.toNat + 1 = nCbps .bpsk ∧ (withIlv .bpsk 46).Legal ∧
    (withIlv .bpsk 46).ilv.fill.toNat + 1 ≠ nCbps .bpsk ∧ (withIlv .qam64 287).Legal ∧
    (withIlv .qam64 287).ilv.fill.toNat + 1 = nCbps .qam64 := by decide
theorem witness_IlvEndChecksAndClears : (withIlv .bpsk 0).ilv.fill = 0 ∧ (withIlv .bpsk 1).ilv.fill ≠ 0 := by decide
theorem witness_InterleaverIsBijection : 287 < nCbps .qam64 ∧
    (List.replicate 288 true).length = nCbps .qam64 := by decide +kernel
theorem witness_InterleaveRunIsSequenceFunction : (withIlv .qam16 0).ilv.fill = 0 ∧
    1 < (List.replicate 100 true).length / nCbps .bpsk ∧ 47 < nCbps .bpsk := by decide
theorem witness_MapCfgSelectsConstellation : (withMap .qpsk 0 (Vector.replicate 6 true)).map.fill = 0 ∧
    (withMap .qpsk 1 (Vector.replicate 6 true)).map.fill ≠ 0 := by decide
theorem witness_MapBitCollectsAndEmits : (withMap .bpsk 0 (Vector.replicate 6 true)).Legal ∧
    (withMap .bpsk 0 (Vector.replicate 6 true)).map.fill.toNat + 1 = nBpsc .bpsk ∧
    (withMap .qam64 5 (Vector.replicate 6 true)).Legal ∧
    (withMap .qam64 5 (Vector.replicate 6 true)).map.fill.toNat + 1 = nBpsc .qam64 ∧
    (withMap .qam64 4 (Vector.replicate 6 true)).Legal ∧
    (withMap .qam64 4 (Vector.replicate 6 true)).map.fill.toNat + 1 ≠ nBpsc .qam64 := by decide
theorem witness_MapEndChecksAndClears : (withMap .qam64 0 (Vector.replicate 6 true)).map.fill = 0 ∧
    (withMap .qam64 5 (Vector.replicate 6 true)).map.fill ≠ 0 := by decide
theorem witness_ModulateRunIsSequenceFunction : (withMap .qam64 0 (Vector.replicate 6 true)).map.fill = 0 := by
  decide
/-- Also for `PltInspInsertsOnly` and `PilotPolaritySequence`. -/
theorem witness_PltInsInsertsAndSteps : (withDin 48).din.length = 48 := by decide
/-- The lists of complex numbers that `AnyOperand` speaks of, in three statements. -/
theorem witness_AnyOperand : (List.replicate 48 (Real.pi : ℂ)).length = 48 ∧
    (List.replicate 52 Complex.I).length = 52 ∧ (List.replicate 64 (Real.pi : ℂ)).length = 64 := by simp
theorem witness_PilotPlacement : (List.replicate 48 (Cplx.ofRat 1)).length = 48 ∧ 0 < 48 ∧ 47 < 48 := by decide
theorem witness_IftXformIsInverseTransform : (withDin 52).din.length = 52 ∧ 0 < 64 ∧ 63 < 64 := by decide
theorem witness_CpgExtExtendsAndWindows : (withDin 64).din.length = 64 ∧ 0 < extendedLength .stf ∧
    (160 < extendedLength .stf ∧ 160 = extendedLength .stf - 1) ∧
    (80 < extendedLength .data ∧ 80 = extendedLength .data - 1) ∧
    (79 < extendedLength .data ∧ ¬ (79 = 0 ∨ 79 = extendedLength .data - 1)) := by decide
theorem witness_CrcTableByEightSteps : 255 < 256 := by decide

end Sys2Proof.Tests
end

section
/-! Proofs on the state: every operation acts on the registers of its own unit alone (10_state.md R26), so
operations of different units commute (20_memory.md R37), and every step keeps the legal values of R14. -/

namespace Sys2Proof.Machine

/-! ### Agreement of two states on a unit's registers -/

theorem State.AgreeOn.refl (u : BlockUnit) (s : State) : s.AgreeOn u s := by
  cases u <;> trivial

theorem State.AgreeOn.symm {u : BlockUnit} {s t : State} (h : s.AgreeOn u t) : t.AgreeOn u s := by
  cases u with
  | ift | cpg => trivial
  | _ => exact Eq.symm h

theorem State.AgreeOn.trans {u : BlockUnit} {s t v : State} (h : s.AgreeOn u t) (h' : t.AgreeOn u v) :
    s.AgreeOn u v := by
  cases u with
  | ift | cpg => trivial
  | _ => exact Eq.trans h h'

/-- Two states have the same registers exactly when they agree on every unit. -/
theorem State.sameRegisters_iff {s t : State} : s.SameRegisters t ↔ ∀ u, s.AgreeOn u t := by
  constructor
  · rintro ⟨hscr, henc, hpun, hilv, hmap, hplt, hcrc⟩ u
    cases u with
    | ift | cpg => trivial
    | _ => assumption
  · intro h
    exact ⟨h .scr, h .enc, h .pun, h .ilv, h .map, h .plt, h .crc⟩

theorem State.sameRegisters_refl (s : State) : s.SameRegisters s :=
  sameRegisters_iff.mpr fun u => .refl u s

/-- Taking a request writes no register. -/
theorem State.accept_sameRegisters (r : Request) (rest : List Input) (s : State) :
    (s.accept r rest).SameRegisters s := ⟨rfl, rfl, rfl, rfl, rfl, rfl, rfl⟩

/-! ### Writing the registers of one unit -/

/-- `w` writes registers of unit `u` and nothing else. IFT and CPG have none to write (R14). -/
inductive WritesOnly : BlockUnit → (State → State) → Prop where
  | keep (u : BlockUnit) : WritesOnly u id
  | scr (r : Scr) : WritesOnly .scr (State.setScr r)
  | enc (r : Enc) : WritesOnly .enc (State.setEnc r)
  | pun (r : Pun) : WritesOnly .pun (State.setPun r)
  | ilv (r : Ilv) : WritesOnly .ilv (State.setIlv r)
  | map (r : Map) : WritesOnly .map (State.setMap r)
  | plt (r : Plt) : WritesOnly .plt (State.setPlt r)
  | crc (r : Crc) : WritesOnly .crc (State.setCrc r)

theorem WritesOnly.agreeOn_of_ne {u v : BlockUnit} {w : State → State} (hw : WritesOnly u w) (hne : v ≠ u)
    (s : State) : (w s).AgreeOn v s := by
  cases hw with
  | keep => exact .refl v s
  | scr | enc | pun | ilv | map | plt | crc =>
    cases v <;> trivial

theorem WritesOnly.agreeOn {u : BlockUnit} {w : State → State} (hw : WritesOnly u w) {s s' : State}
    (h : s.AgreeOn u s') : (w s).AgreeOn u (w s') := by
  cases hw with
  | keep => exact h
  | scr | enc | pun | ilv | map | plt | crc => rfl

theorem WritesOnly.outbox {u : BlockUnit} {w : State → State} (hw : WritesOnly u w) (s : State) :
    (w s).outbox = s.outbox := by
  cases hw <;> rfl

/-! ### What an operation does from two states that agree on its unit -/

/-- Two outcomes, from `s` and from `s'`, of an operation of unit `u` that takes an operand of length `n` have the
same effect: both are refused, the operand having another length, or both make the same write to the unit and
give the same response. -/
inductive SameEffect (u : BlockUnit) (n : Nat) (s s' : State) :
    Host.Outcome State Fault Refusal → Host.Outcome State Fault Refusal → Prop where
  | refuse (hlen : s.din.length ≠ n) :
    SameEffect u n s s' (.refused .operandLength) (.refused .operandLength)
  | write {w : State → State} (hw : WritesOnly u w) (st : Status) (d : List Datum) :
    SameEffect u n s s' (.next ((w s).respond st d)) (.next ((w s').respond st d))

namespace SameEffect

theorem answer {u : BlockUnit} {n : Nat} {s s' : State} {w : State → State} (hw : WritesOnly u w)
    {d : List Datum} :
    SameEffect u n s s' (answer d (w s)) (answer d (w s')) := .write hw .ok d

theorem raising {u : BlockUnit} {n : Nat} {s s' : State} {w : State → State} (hw : WritesOnly u w)
    {st : Status} :
    SameEffect u n s s' (raising st (w s)) (raising st (w s')) := .write hw st []

theorem ite {u : BlockUnit} {n : Nat} {s s' : State} {c : Prop} [Decidable c]
    {a a' b b' : Host.Outcome State Fault Refusal}
    (ha : SameEffect u n s s' a a') (hb : SameEffect u n s s' b b') :
    SameEffect u n s s' (if c then a else b) (if c then a' else b') := by
  split
  · exact ha
  · exact hb

end SameEffect

/-- States with one operand pass the same length check. -/
theorem operand_cases_of_din_eq {s s' : State} (hdin : s.din = s'.din) (n : Nat) :
    (s.din.length ≠ n ∧ s.operand n = none ∧ s'.operand n = none) ∨
    ∃ d, s.operand n = some d ∧ s'.operand n = some d := by
  by_cases hlen : s.din.length = n
  · exact .inr ⟨s.din, (operand_eq_some n s _).mpr ⟨hlen, rfl⟩,
      (operand_eq_some n s' _).mpr ⟨hdin ▸ hlen, hdin⟩⟩
  · exact .inl ⟨hlen, (operand_eq_none n s).mpr hlen, (operand_eq_none n s').mpr (hdin ▸ hlen)⟩

/-- What an operation does is fixed by its own unit's registers and its operand (R26). -/
theorem exec_sameEffect (i : Instr) {s s' : State} (hag : s.AgreeOn i.unit s') (hdin : s.din = s'.din) :
    SameEffect i.unit i.dinLength s s' (exec i s) (exec i s') := by
  cases i with
  | scrSeed seed => exact .answer (.scr _)
  | scrBit b =>
    have hscr : s.scr = s'.scr := hag
    simp only [exec, execScrBit, scrambleStep, hscr]
    exact .answer (.scr _)
  | scrGen =>
    have hscr : s.scr = s'.scr := hag
    simp only [exec, execScrGen, scrambleStep, hscr]
    exact .answer (.scr _)
  | encClr => exact .answer (.enc _)
  | encBit b =>
    have henc : s.enc = s'.enc := hag
    simp only [exec, execEncBit, henc]
    exact .answer (.enc _)
  | punStart rate =>
    cases rate with
    | none => exact .raising (.keep _)
    | some r => exact .answer (.pun _)
  | punBit b =>
    have hpun : s.pun = s'.pun := hag
    simp only [exec, execPunBit, hpun]
    exact .answer (.pun _)
  | ilvCfg mod =>
    have hilv : s.ilv = s'.ilv := hag
    simp only [exec, execIlvCfg, hilv]
    exact .ite (.raising (.keep _)) (.answer (.ilv _))
  | ilvBit b =>
    have hilv : s.ilv = s'.ilv := hag
    simp only [exec, execIlvBit, hilv]
    exact .ite (.answer (.ilv _)) (.answer (.ilv _))
  | ilvEnd =>
    have hilv : s.ilv = s'.ilv := hag
    simp only [exec, execIlvEnd, hilv]
    exact .ite (.raising (.ilv _)) (.answer (.keep _))
  | mapCfg mod =>
    have hmap : s.map = s'.map := hag
    simp only [exec, execMapCfg, hmap]
    exact .ite (.raising (.keep _)) (.answer (.map _))
  | mapBit b =>
    have hmap : s.map = s'.map := hag
    simp only [exec, execMapBit, hmap]
    exact .ite (.answer (.map _)) (.answer (.map _))
  | mapEnd =>
    have hmap : s.map = s'.map := hag
    simp only [exec, execMapEnd, hmap]
    exact .ite (.raising (.map _)) (.answer (.keep _))
  | pltStart => exact .answer (.plt _)
  | pltIns =>
    have hplt : s.plt = s'.plt := hag
    obtain ⟨hlen, ho, ho'⟩ | ⟨d, ho, ho'⟩ := operand_cases_of_din_eq hdin 48
    · simpa only [exec, execPltIns, ho, ho'] using .refuse hlen
    · simpa only [exec, execPltIns, ho, ho', hplt] using .answer (.plt _)
  | pltInsp pol =>
    obtain ⟨hlen, ho, ho'⟩ | ⟨d, ho, ho'⟩ := operand_cases_of_din_eq hdin 48
    · simpa only [exec, execPltInsp, ho, ho'] using .refuse hlen
    · simpa only [exec, execPltInsp, ho, ho'] using .answer (.keep _)
  | iftXform =>
    obtain ⟨hlen, ho, ho'⟩ | ⟨d, ho, ho'⟩ := operand_cases_of_din_eq hdin 52
    · simpa only [exec, execIftXform, ho, ho'] using .refuse hlen
    · simpa only [exec, execIftXform, ho, ho'] using .answer (.keep _)
  | cpgExt field =>
    obtain ⟨hlen, ho, ho'⟩ | ⟨d, ho, ho'⟩ := operand_cases_of_din_eq hdin 64
    · simpa only [exec, execCpgExt, ho, ho'] using .refuse hlen
    · simpa only [exec, execCpgExt, ho, ho'] using .answer (.keep _)
  | crcInit => exact .answer (.crc _)
  | crcByte byte =>
    have hcrc : s.crc = s'.crc := hag
    simp only [exec, execCrcByte, hcrc]
    exact .answer (.crc _)
  | crcFin =>
    have hcrc : s.crc = s'.crc := hag
    simp only [exec, execCrcFin, hcrc]
    exact .answer (.keep _)

/-- An operation that completes completes from every state with the same registers of its unit and the same
operand, with the same response and the same new registers of the unit. -/
theorem exec_next_of_agreeOn {i : Instr} {s s' t : State} (hag : s.AgreeOn i.unit s') (hdin : s.din = s'.din)
    (h : exec i s = .next t) :
    ∃ (t' : State) (r : Response), exec i s' = .next t' ∧ t.AgreeOn i.unit t' ∧
      t.outbox = s.outbox ++ [r] ∧ t'.outbox = s'.outbox ++ [r] := by
  have heff := exec_sameEffect i hag hdin
  generalize exec i s' = o' at heff ⊢
  rw [h] at heff
  cases heff with
  | write hw st d => exact ⟨_, ⟨st, d⟩, rfl, hw.agreeOn hag, by simp [hw.outbox], by simp [hw.outbox]⟩

/-- An operation leaves every other unit's registers unchanged. -/
theorem exec_agreeOn_of_ne {i : Instr} {s t : State} (h : exec i s = .next t) {u : BlockUnit}
    (hne : u ≠ i.unit) : t.AgreeOn u s := by
  have heff := exec_sameEffect i (.refl i.unit s) rfl
  rw [h] at heff
  cases heff with
  | write hw st d => exact hw.agreeOn_of_ne hne s

/-- An operation whose operand has its length completes. -/
theorem exec_next_of_wellFormed {i : Instr} {s : State} (hwf : i.wellFormedWith s.din = true) :
    ∃ t, exec i s = .next t := by
  have hlen : s.din.length = i.dinLength := by simpa [Instr.wellFormedWith] using hwf
  have heff := exec_sameEffect i (.refl i.unit s) rfl
  generalize exec i s = o at heff ⊢
  cases heff with
  | refuse hne => exact absurd hlen hne
  | write => exact ⟨_, rfl⟩

/-- Settles O16: what an operation reads is `exec_next_of_agreeOn`, what it leaves is `exec_agreeOn_of_ne`. -/
theorem unitsShareNoState : Obligations.UnitsShareNoState :=
  fun _ _ _ _ hag hdin h => ⟨exec_next_of_agreeOn hag hdin h, fun _ hne => exec_agreeOn_of_ne h hne⟩

/-! ### Operations of different units commute -/

/-- Operation `i` with operand `din` takes the registers of `s` to those of `t` and answers `r`, whatever else
stands at the port. -/
def Performs (i : Instr) (din : List Cplx) (r : Response) (s t : State) : Prop :=
  ∃ q, q.SameRegisters s ∧ q.din = din ∧ exec i q = .next t ∧ t.outbox = q.outbox ++ [r]

theorem performs_of_exec {i : Instr} {q t : State} (h : exec i q = .next t) {s : State}
    (hq : q.SameRegisters s) : ∃ r, Performs i q.din r s t ∧ t.outbox = q.outbox ++ [r] := by
  obtain ⟨r, hout, -⟩ := exec_port i q t h
  exact ⟨r, ⟨q, hq, rfl, h, hout⟩, hout⟩

theorem Performs.agreeOn_of_ne {i : Instr} {d : List Cplx} {r : Response} {s t : State}
    (h : Performs i d r s t) {u : BlockUnit} (hne : u ≠ i.unit) : t.AgreeOn u s := by
  obtain ⟨q, hq, -, hexec, -⟩ := h
  exact (exec_agreeOn_of_ne hexec hne).trans (State.sameRegisters_iff.mp hq u)

/-- The same operation with the same operand, from states that agree on its unit. -/
theorem Performs.agreeOn {i : Instr} {d : List Cplx} {r r' : Response} {s s' t t' : State}
    (h : Performs i d r s t) (h' : Performs i d r' s' t') (hag : s.AgreeOn i.unit s') :
    t.AgreeOn i.unit t' ∧ r = r' := by
  obtain ⟨q, hq, hdin, hexec, hout⟩ := h
  obtain ⟨q', hq', hdin', hexec', hout'⟩ := h'
  have hqq' : q.AgreeOn i.unit q' :=
    ((State.sameRegisters_iff.mp hq _).trans hag).trans (State.sameRegisters_iff.mp hq' _).symm
  obtain ⟨p, a, hp, hag', hta, hpa⟩ := exec_next_of_agreeOn hqq' (hdin.trans hdin'.symm) hexec
  obtain rfl : p = t' := by simpa [hp] using hexec'
  have hr : r = a := by simpa [hout] using hta
  have hr' : r' = a := by simpa [hout'] using hpa
  exact ⟨hag', hr.trans hr'.symm⟩

/-- Two operations of different units, performed in either order, leave the same registers and each answers the
same. -/
theorem Performs.comm {i j : Instr} (hne : i.unit ≠ j.unit) {di dj : List Cplx} {a a' b b' : Response}
    {s t₁ t u₁ u : State} (hi : Performs i di a s t₁) (hj : Performs j dj b t₁ t)
    (hj' : Performs j dj b' s u₁) (hi' : Performs i di a' u₁ u) : t.SameRegisters u ∧ a = a' ∧ b = b' := by
  obtain ⟨hti, ha⟩ := hi.agreeOn hi' (hj'.agreeOn_of_ne hne).symm
  obtain ⟨htj, hb⟩ := hj.agreeOn hj' (hi.agreeOn_of_ne hne.symm)
  refine ⟨State.sameRegisters_iff.mpr fun v => ?_, ha, hb⟩
  by_cases hvi : v = i.unit
  · subst hvi
    exact (hj.agreeOn_of_ne hne).trans hti
  · by_cases hvj : v = j.unit
    · subst hvj
      exact htj.trans (hi'.agreeOn_of_ne hvi).symm
    · have ht : t.AgreeOn v s := (hj.agreeOn_of_ne hvj).trans (hi.agreeOn_of_ne hvi)
      have hu : u.AgreeOn v s := (hi'.agreeOn_of_ne hvi).trans (hj'.agreeOn_of_ne hvj)
      exact ht.trans hu.symm

/-! ### Runs of operations and of steps -/

theorem execAll_cons_eq_next (i : Instr) (is : List Instr) (s t : State) :
    execAll (i :: is) s = .next t ↔ ∃ m, exec i s = .next m ∧ execAll is m = .next t := by
  cases h : exec i s <;> simp [execAll, h]

theorem execAll_pair_eq_next (i j : Instr) (s t : State) :
    execAll [i, j] s = .next t ↔ ∃ m, exec i s = .next m ∧ exec j m = .next t := by
  simp only [execAll_cons_eq_next]
  simp [execAll]

/-- A step on a well-formed request performs its operation. -/
theorem step_request {s : State} {r : Request} {rest : List Input} {i : Instr}
    (hin : s.inbox = .request r :: rest) (hdec : decode r.cmd = .ok i) (hwf : i.wellFormedWith r.din = true) :
    step s = exec i (s.accept r rest) := by
  simp [step, serve, hin, performRequest, hdec, hwf]

theorem core_run_succ {s m : State} (h : step s = .next m) (k : Nat) :
    Sys2Proof.core.run (k + 1) s = Sys2Proof.core.run k m := by
  have hcore : Sys2Proof.core.step s = .next m := h
  simp only [Host.Core.run, hcore]

/-- Two well-formed requests at the head of the port are performed one after the other by two steps, and both
are answered. -/
theorem run_two_requests (s : State) {ri rj : Request} (rest : List Input) {i j : Instr}
    (hdi : decode ri.cmd = .ok i) (hdj : decode rj.cmd = .ok j) (hwi : i.wellFormedWith ri.din = true)
    (hwj : j.wellFormedWith rj.din = true) :
    ∃ (t₁ t : State) (a b : Response),
      Sys2Proof.core.run 2 { s with inbox := .request ri :: .request rj :: rest } = .next t ∧
      Performs i ri.din a s t₁ ∧ Performs j rj.din b t₁ t ∧ t.inbox = rest ∧ t.outbox = s.outbox ++ [a, b] := by
  obtain ⟨t₁, ht₁⟩ := exec_next_of_wellFormed (s := s.accept ri (.request rj :: rest)) hwi
  obtain ⟨t, ht⟩ := exec_next_of_wellFormed (s := t₁.accept rj rest) hwj
  obtain ⟨a, ha, hta⟩ := performs_of_exec ht₁ (s.accept_sameRegisters _ _)
  obtain ⟨b, hb, htb⟩ := performs_of_exec ht (t₁.accept_sameRegisters _ _)
  obtain ⟨-, -, hin₁, -⟩ := exec_port _ _ _ ht₁
  obtain ⟨-, -, hin, -⟩ := exec_port _ _ _ ht
  have hfirst : step { s with inbox := .request ri :: .request rj :: rest } = .next t₁ :=
    (step_request rfl hdi hwi).trans ht₁
  have hsecond : step t₁ = .next t := (step_request hin₁ hdj hwj).trans ht
  exact ⟨t₁, t, a, b, (core_run_succ hfirst 1).trans (core_run_succ hsecond 0), ha, hb, hin,
    by simp [htb, hta]⟩

/-- Settles O17: either order performs the same two operations, which commute (`Performs.comm`). -/
theorem operationsOnOtherUnitsCommute : Obligations.OperationsOnOtherUnitsCommute := by
  constructor
  · intro s ri rj rest i j hdi hdj hwi hwj hne
    obtain ⟨t₁, t, a, b, hrun, hi, hj, hin, hout⟩ := run_two_requests s rest hdi hdj hwi hwj
    obtain ⟨u₁, u, b', a', hrun', hj', hi', hin', hout'⟩ := run_two_requests s rest hdj hdi hwj hwi
    obtain ⟨hregs, rfl, rfl⟩ := Performs.comm hne hi hj hj' hi'
    exact ⟨t, u, a, b, hrun, hrun', hregs, hin, hin', hout, hout'⟩
  · intro i j s t hne h
    obtain ⟨t₁, hexi, hexj⟩ := (execAll_pair_eq_next i j s t).mp h
    obtain ⟨-, -, -, hdin₁⟩ := exec_port _ _ _ hexi
    obtain ⟨u₁, -, hexj', -⟩ := exec_next_of_agreeOn (exec_agreeOn_of_ne hexi hne.symm) hdin₁ hexj
    obtain ⟨-, -, -, hdin₂⟩ := exec_port _ _ _ hexj'
    obtain ⟨u, -, hexi', -⟩ := exec_next_of_agreeOn (exec_agreeOn_of_ne hexj' hne).symm hdin₂.symm hexi
    obtain ⟨a, hi, hta⟩ := performs_of_exec hexi (State.sameRegisters_refl s)
    obtain ⟨b, hj, htb⟩ := performs_of_exec hexj (State.sameRegisters_refl t₁)
    obtain ⟨b', hj', hub⟩ := performs_of_exec hexj' (State.sameRegisters_refl s)
    obtain ⟨a', hi', hua⟩ := performs_of_exec hexi' (State.sameRegisters_refl u₁)
    rw [hdin₁] at hj
    rw [hdin₂] at hi'
    obtain ⟨hregs, rfl, rfl⟩ := Performs.comm hne hi hj hj' hi'
    exact ⟨u, a, b, (execAll_pair_eq_next j i s u).mpr ⟨u₁, hexj', hexi'⟩, hregs, by simp [htb, hta],
      by simp [hua, hub]⟩

/-! ### Legal register values -/

/-- The bound of R14 on `pun.phase`. -/
def Pun.Legal (p : Pun) : Prop := p.phase.toNat < phaseBound p.rate

/-- The bound of R14 on `ilv.fill`. -/
def Ilv.Legal (l : Ilv) : Prop := l.fill.toNat < nCbps l.mod

/-- The bound of R14 on `map.fill`. -/
def Map.Legal (m : Map) : Prop := m.fill.toNat < nBpsc m.mod

theorem State.legal_iff (s : State) : s.Legal ↔ s.pun.Legal ∧ s.ilv.Legal ∧ s.map.Legal := Iff.rfl

/-- A fill that is not the last one of its block stays below the block's size when it is counted up. -/
theorem fill_succ_lt {w : Nat} (f : BitVec w) {n : Nat} (hf : f.toNat < n) (hlast : f.toNat + 1 ≠ n) :
    (f + 1).toNat < n := by
  have hone : (1 : BitVec w).toNat ≤ 1 := by simpa using Nat.mod_le 1 (2 ^ w)
  have hsum : (f + 1).toNat ≤ f.toNat + (1 : BitVec w).toNat := by
    rw [BitVec.toNat_add]
    exact Nat.mod_le _ _
  omega

theorem phaseBound_pos (r : CodingRate) : 0 < phaseBound r := by cases r <;> decide

/-- PUN.START goes to the first position of its rate's pattern, or writes nothing (R80). -/
theorem exec_punStart_pun {rate : Option CodingRate} {s t : State} (h : exec (.punStart rate) s = .next t) :
    t.pun = rate.elim s.pun (fun r => ⟨r, 0⟩) := by
  cases rate with
  | none => obtain rfl := (raising_eq_next _ _ _).mp h; rfl
  | some r => obtain rfl := (answer_eq_next _ _ _).mp h; rfl

theorem exec_punBit_pun {b : Bit} {s t : State} (h : exec (.punBit b) s = .next t) :
    t.pun = { s.pun with phase := punctureNext s.pun.rate s.pun.phase } := by
  obtain rfl := (answer_eq_next _ _ _).mp h
  rfl

/-- ILV.CFG selects the modulation where no partial symbol is held, and writes nothing elsewhere (R89). -/
theorem exec_ilvCfg_ilv {mod : Modulation} {s t : State} (h : exec (.ilvCfg mod) s = .next t) :
    t.ilv = if s.ilv.fill = 0 then { s.ilv with mod := mod } else s.ilv := by
  simp only [exec, execIlvCfg, holdsPartial_toNat_iff] at h
  split at h
  next hfill => obtain rfl := (raising_eq_next _ _ _).mp h; exact (if_neg hfill).symm
  next hfill => obtain rfl := (answer_eq_next _ _ _).mp h; exact (if_pos (not_not.mp hfill)).symm

/-- ILV.BIT stores its bit and counts it, from 0 again after the symbol's last (R90). -/
theorem exec_ilvBit_ilv {b : Bit} {s t : State} (h : exec (.ilvBit b) s = .next t) :
    t.ilv = { s.ilv with
      fill := if s.ilv.fill.toNat + 1 = nCbps s.ilv.mod then 0 else s.ilv.fill + 1
      buf := s.ilv.buf.setIfInBounds (interleaveIndex s.ilv.mod s.ilv.fill.toNat) b } := by
  simp only [exec, execIlvBit] at h
  split at h
  next hlast => obtain rfl := (answer_eq_next _ _ _).mp h; simp [hlast]
  next hlast => obtain rfl := (answer_eq_next _ _ _).mp h; simp [hlast]

/-- ILV.END leaves the fill 0, whether it raises or not (R91). -/
theorem exec_ilvEnd_ilv {s t : State} (h : exec .ilvEnd s = .next t) : t.ilv = { s.ilv with fill := 0 } := by
  simp only [exec, execIlvEnd, holdsPartial_toNat_iff] at h
  split at h
  next => obtain rfl := (raising_eq_next _ _ _).mp h; rfl
  next hfill => obtain rfl := (answer_eq_next _ _ _).mp h; simp [← not_not.mp hfill]

/-- MAP.CFG selects the modulation where no partial group is held, and writes nothing elsewhere (R101). -/
theorem exec_mapCfg_map {mod : Modulation} {s t : State} (h : exec (.mapCfg mod) s = .next t) :
    t.map = if s.map.fill = 0 then { s.map with mod := mod } else s.map := by
  simp only [exec, execMapCfg, holdsPartial_toNat_iff] at h
  split at h
  next hfill => obtain rfl := (raising_eq_next _ _ _).mp h; exact (if_neg hfill).symm
  next hfill => obtain rfl := (answer_eq_next _ _ _).mp h; exact (if_pos (not_not.mp hfill)).symm

/-- MAP.BIT collects its bit and counts it, from 0 again after the group's last (R102). -/
theorem exec_mapBit_map {b : Bit} {s t : State} (h : exec (.mapBit b) s = .next t) :
    t.map = { s.map with
      fill := if s.map.fill.toNat + 1 = nBpsc s.map.mod then 0 else s.map.fill + 1
      acc := s.map.acc.setIfInBounds s.map.fill.toNat b } := by
  simp only [exec, execMapBit] at h
  split at h
  next hlast => obtain rfl := (answer_eq_next _ _ _).mp h; simp [hlast]
  next hlast => obtain rfl := (answer_eq_next _ _ _).mp h; simp [hlast]

/-- MAP.END leaves the fill 0, whether it raises or not (R103). -/
theorem exec_mapEnd_map {s t : State} (h : exec .mapEnd s = .next t) : t.map = { s.map with fill := 0 } := by
  simp only [exec, execMapEnd, holdsPartial_toNat_iff] at h
  split at h
  next => obtain rfl := (raising_eq_next _ _ _).mp h; rfl
  next hfill => obtain rfl := (answer_eq_next _ _ _).mp h; simp [← not_not.mp hfill]

theorem exec_keeps_pun_legal {i : Instr} {s t : State} (hL : s.pun.Legal) (h : exec i s = .next t) :
    t.pun.Legal := by
  by_cases hu : i.unit = .pun
  · cases i with
    | punStart rate =>
      rw [exec_punStart_pun h]
      cases rate with
      | none => exact hL
      | some r => exact phaseBound_pos r
    | punBit b =>
      rw [exec_punBit_pun h, Pun.Legal, punctureNext_toNat]
      exact Nat.mod_lt _ (phaseBound_pos _)
    | _ => cases hu
  · have hpun : t.pun = s.pun := exec_agreeOn_of_ne h (Ne.symm hu)
    rwa [hpun]

theorem exec_keeps_ilv_legal {i : Instr} {s t : State} (hL : s.ilv.Legal) (h : exec i s = .next t) :
    t.ilv.Legal := by
  by_cases hu : i.unit = .ilv
  · cases i with
    | ilvCfg mod =>
      rw [exec_ilvCfg_ilv h]
      split
      next hfill => simpa [Ilv.Legal, hfill] using nCbps_pos mod
      next => exact hL
    | ilvBit b =>
      rw [exec_ilvBit_ilv h, Ilv.Legal]
      split
      next => exact nCbps_pos _
      next hlast => exact fill_succ_lt _ hL hlast
    | ilvEnd =>
      rw [exec_ilvEnd_ilv h]
      exact nCbps_pos _
    | _ => cases hu
  · have hilv : t.ilv = s.ilv := exec_agreeOn_of_ne h (Ne.symm hu)
    rwa [hilv]

theorem exec_keeps_map_legal {i : Instr} {s t : State} (hL : s.map.Legal) (h : exec i s = .next t) :
    t.map.Legal := by
  by_cases hu : i.unit = .map
  · cases i with
    | mapCfg mod =>
      rw [exec_mapCfg_map h]
      split
      next hfill => simpa [Map.Legal, hfill] using nBpsc_pos mod
      next => exact hL
    | mapBit b =>
      rw [exec_mapBit_map h, Map.Legal]
      split
      next => exact nBpsc_pos _
      next hlast => exact fill_succ_lt _ hL hlast
    | mapEnd =>
      rw [exec_mapEnd_map h]
      exact nBpsc_pos _
    | _ => cases hu
  · have hmap : t.map = s.map := exec_agreeOn_of_ne h (Ne.symm hu)
    rwa [hmap]

/-- Every operation keeps every register within R14's legal values. -/
theorem exec_keeps_legal {i : Instr} {s t : State} (hL : s.Legal) (h : exec i s = .next t) : t.Legal := by
  obtain ⟨hpun, hilv, hmap⟩ := (State.legal_iff s).mp hL
  exact ⟨exec_keeps_pun_legal hpun h, exec_keeps_ilv_legal hilv h, exec_keeps_map_legal hmap h⟩

/-- Settles O13. -/
theorem resetIsLegalAndAtRest : Obligations.ResetIsLegalAndAtRest := by
  refine ⟨⟨?phase, ?ilvFill, ?mapFill⟩, ⟨?ilvRest, ?mapRest⟩, ?port⟩
  case phase => exact phaseBound_pos .half
  case ilvFill => exact nCbps_pos .bpsk
  case mapFill => exact nBpsc_pos .bpsk
  case ilvRest | mapRest | port => rfl

/-- Settles O12, by what a step can do: hold, reset, answer an illegal word, or perform an operation. -/
theorem stepKeepsRegistersLegal : Obligations.StepKeepsRegistersLegal := by
  intro s t hL h
  obtain ⟨-, hs⟩ | ⟨p, rest, -, hs⟩ | ⟨r, rest, e, -, -, hs⟩ | ⟨r, rest, i, -, -, -, hs⟩ |
    ⟨r, rest, i, -, -, -, hs⟩ := step_cases s
  · obtain rfl : s = t := by simpa [hs] using h
    exact hL
  · obtain rfl : s.resetBy rest = t := by simpa [hs] using h
    exact resetIsLegalAndAtRest.1
  · obtain rfl : (s.accept r rest).raise .illegalCommand = t := by simpa [hs] using h
    exact hL
  · exact exec_keeps_legal (s := s.accept r rest) hL (hs.symm.trans h)
  · simp [hs] at h

end Sys2Proof.Machine
end

section
/-! Proofs on the command port and on repetition: a step performs or refuses the request it takes, a run serves
every input that waits (20_memory.md R37), and the operations of R33 change nothing the second time. -/

namespace Sys2Proof.Machine

/-! ### One request -/

/-- Settles O4. -/
theorem stepRunsDecodedInstruction : Obligations.StepRunsDecodedInstruction :=
  fun _ _ _ _ hin hdec hwf => step_request hin hdec hwf

/-- A request whose operand has another length than its operation takes is refused by the port (U9). -/
theorem step_request_of_length_ne {s : State} {r : Request} {rest : List Input} {i : Instr}
    (hin : s.inbox = .request r :: rest) (hdec : decode r.cmd = .ok i) (hlen : r.din.length ≠ i.dinLength) :
    step s = .refused .operandLength := by
  simp [step, serve, hin, performRequest, hdec, Instr.wellFormedWith, hlen]

/-- Settles O6: the port compares the lengths itself, the four operations find no operand of theirs. -/
theorem illFormedRequestRefused : Obligations.IllFormedRequestRefused := by
  refine ⟨fun _ _ _ _ hin hdec hlen => step_request_of_length_ne hin hdec hlen, ?pltIns, ?pltInsp, ?iftXform,
    ?cpgExt⟩
  case pltIns =>
    intro s hlen
    simp only [exec, execPltIns, (operand_eq_none 48 s).mpr hlen]
  case pltInsp =>
    intro s pol hlen
    simp only [exec, execPltInsp, (operand_eq_none 48 s).mpr hlen]
  case iftXform =>
    intro s hlen
    simp only [exec, execIftXform, (operand_eq_none 52 s).mpr hlen]
  case cpgExt =>
    intro s field hlen
    simp only [exec, execCpgExt, (operand_eq_none 64 s).mpr hlen]

/-! ### Serving everything that waits -/

/-- A step on a formed request takes it from the port and adds one response (R37), whether its word is legal or
not. -/
theorem step_request_of_formed {s : State} {r : Request} {rest : List Input}
    (hin : s.inbox = .request r :: rest) (hf : r.formed = true) :
    ∃ (m : State) (a : Response), step s = .next m ∧ m.inbox = rest ∧ m.outbox = s.outbox ++ [a] := by
  cases hdec : decode r.cmd with
  | error e =>
    refine ⟨(s.accept r rest).raise .illegalCommand, ⟨.illegalCommand, []⟩, ?_, rfl, rfl⟩
    simp [step, serve, hin, performRequest, hdec, raising]
  | ok i =>
    have hwf : i.wellFormedWith r.din = true := by simpa [Request.formed, hdec] using hf
    obtain ⟨m, hm⟩ := exec_next_of_wellFormed (s := s.accept r rest) hwf
    obtain ⟨a, hout, hinbox, -⟩ := exec_port _ _ _ hm
    exact ⟨m, a, (step_request hin hdec hwf).trans hm, hinbox, hout⟩

/-- A step on a formed input takes it from the port and answers it exactly where it is a request (R176). -/
theorem step_serves_formed {s : State} {x : Input} {rest : List Input} (hin : s.inbox = x :: rest)
    (hf : x.formed = true) :
    ∃ (m : State) (rs : List Response), step s = .next m ∧ m.inbox = rest ∧ m.outbox = s.outbox ++ rs ∧
      rs.length = ([x].filter Input.answered).length := by
  cases x with
  | request r =>
    obtain ⟨m, a, hstep, hinbox, hout⟩ := step_request_of_formed hin hf
    exact ⟨m, [a], hstep, hinbox, hout, rfl⟩
  | reset p => exact ⟨s.resetBy rest, [], by simp [step, serve, hin], rfl, by simp, rfl⟩

/-- Settles O15, by induction on the inputs that wait: one step serves the first of them. -/
theorem inboxServedCompletely : Obligations.InboxServedCompletely := by
  intro s hformed
  generalize hin : s.inbox = xs
  induction xs generalizing s with
  | nil => exact ⟨s, [], rfl, hin, by simp, rfl⟩
  | cons x rest ih =>
    obtain ⟨hx, hrest⟩ : x.formed = true ∧ rest.all Input.formed = true := by
      simpa [State.PortFormed, hin] using hformed
    obtain ⟨m, rs, hstep, hinbox, hout, hcount⟩ := step_serves_formed hin hx
    obtain ⟨t, rs', hrun, hempty, hout', hcount'⟩ := ih m (by simpa [hinbox] using hrest) hinbox
    refine ⟨t, rs ++ rs', (core_run_succ hstep _).trans hrun, hempty, by simp [hout', hout], ?_⟩
    calc (rs ++ rs').length
        = ([x].filter Input.answered).length + (rest.filter Input.answered).length := by
          rw [List.length_append, hcount, hcount']
      _ = ((x :: rest).filter Input.answered).length := by
          rw [← List.length_append, ← List.filter_append, List.singleton_append]

/-! ### Doing an operation again -/

/-- A write of fixed register values, done again after a response, changes no register. -/
theorem WritesOnly.again_sameRegisters {u : BlockUnit} {w : State → State} (hw : WritesOnly u w) (s : State)
    (st st' : Status) (d d' : List Datum) :
    ((w ((w s).respond st d)).respond st' d').SameRegisters ((w s).respond st d) := by
  cases hw <;> exact ⟨rfl, rfl, rfl, rfl, rfl, rfl, rfl⟩

/-- An operation that has the same effect from the state it has led to as from the one before repeats. -/
theorem SameEffect.repeats {i : Instr} {s t : State} (h : exec i s = .next t)
    (heff : SameEffect i.unit i.dinLength s t (exec i s) (exec i t)) :
    ∃ (u : State) (r : Response), exec i t = .next u ∧ u.SameRegisters t ∧
      t.outbox = s.outbox ++ [r] ∧ u.outbox = t.outbox ++ [r] := by
  rw [h] at heff
  generalize exec i t = o at heff ⊢
  cases heff with
  | write hw st d =>
    exact ⟨_, ⟨st, d⟩, rfl, hw.again_sameRegisters s st st d d, by simp [hw.outbox], by simp [hw.outbox]⟩

/-- PLT.INSP reads the polarity from its command and leaves the generator (R113). -/
theorem exec_pltInsp_plt {pol : Polarity} {s t : State} (h : exec (.pltInsp pol) s = .next t) :
    t.plt = s.plt := by
  simp only [exec, execPltInsp] at h
  split at h
  next => cases h
  next => obtain rfl := (answer_eq_next _ _ _).mp h; rfl

/-- ILV.CFG with no partial symbol held selects the modulation it has selected. -/
theorem ilvCfg_sameEffect_again {m : Modulation} {s t : State} (h : exec (.ilvCfg m) s = .next t)
    (hfill : s.ilv.fill = 0) :
    SameEffect .ilv 0 s t (exec (.ilvCfg m) s) (exec (.ilvCfg m) t) := by
  have ht : t.ilv = { s.ilv with mod := m } := (exec_ilvCfg_ilv h).trans (if_pos hfill)
  simp only [exec, execIlvCfg, ht]
  exact .ite (.raising (.keep _)) (.answer (.ilv _))

/-- MAP.CFG with no partial group held selects the modulation it has selected. -/
theorem mapCfg_sameEffect_again {m : Modulation} {s t : State} (h : exec (.mapCfg m) s = .next t)
    (hfill : s.map.fill = 0) :
    SameEffect .map 0 s t (exec (.mapCfg m) s) (exec (.mapCfg m) t) := by
  have ht : t.map = { s.map with mod := m } := (exec_mapCfg_map h).trans (if_pos hfill)
  simp only [exec, execMapCfg, ht]
  exact .ite (.raising (.keep _)) (.answer (.map _))

/-- Settles O21: each of these operations reads no register of its unit, leaves its unit's registers, or selects
a modulation with no partial block held. -/
theorem repeatableOperations : Obligations.RepeatableOperations := by
  intro i s t hrep h
  obtain ⟨-, -, -, hdin⟩ := exec_port i s t h
  have of_kept (hkept : t.AgreeOn i.unit s) :
      SameEffect i.unit i.dinLength s t (exec i s) (exec i t) := exec_sameEffect i hkept.symm hdin.symm
  refine SameEffect.repeats h ?_
  obtain ⟨seed, rfl⟩ | rfl | ⟨rate, rfl⟩ | rfl | rfl | rfl | rfl | ⟨field, rfl⟩ | ⟨pol, rfl⟩ |
    ⟨rfl | ⟨m, rfl⟩, hfill⟩ | ⟨rfl | ⟨m, rfl⟩, hfill⟩ := hrep
  -- The start operations read no register: SCR.SEED, ENC.CLR, PUN.START, PLT.START, CRC.INIT.
  · exact .answer (.scr _)
  · exact .answer (.enc _)
  · cases rate with
    | none => exact .raising (.keep _)
    | some r => exact .answer (.pun _)
  · exact .answer (.plt _)
  · exact .answer (.crc _)
  -- CRC.FIN, IFT.XFORM, CPG.EXT and PLT.INSP write no register.
  · obtain rfl := (answer_eq_next _ _ _).mp h
    exact of_kept rfl
  · exact of_kept trivial
  · exact of_kept trivial
  · exact of_kept (exec_pltInsp_plt h)
  -- The END and CFG of ILV, then of MAP, with the fill 0.
  · exact of_kept ((exec_ilvEnd_ilv h).trans (by rw [← hfill]))
  · exact ilvCfg_sameEffect_again h hfill
  · exact of_kept ((exec_mapEnd_map h).trans (by rw [← hfill]))
  · exact mapCfg_sameEffect_again h hfill

end Sys2Proof.Machine
end

section
/-! Proofs on the command word: `encode` and `decode` are inverse to each other, field by field of R45, and the words
that decode are those of the rows of 30_encoding.md R46. -/

namespace Sys2Proof

/-! ### The three fields of a word -/

@[simp] theorem unitField_cmdWord (unit op : BitVec 4) (imm : BitVec 8) : unitField (cmdWord unit op imm) = unit := by
  rw [unitField, cmdWord, BitVec.extractLsb'_append_eq_of_le (by decide)]
  exact BitVec.extractLsb'_append_eq_left

@[simp] theorem opField_cmdWord (unit op : BitVec 4) (imm : BitVec 8) : opField (cmdWord unit op imm) = op := by
  rw [opField, cmdWord, BitVec.extractLsb'_append_eq_of_le (by decide)]
  exact BitVec.extractLsb'_append_eq_right

@[simp] theorem immField_cmdWord (unit op : BitVec 4) (imm : BitVec 8) : immField (cmdWord unit op imm) = imm :=
  BitVec.extractLsb'_append_eq_right

theorem cmdWord_fields (w : CmdWord) : cmdWord (unitField w) (opField w) (immField w) = w := by
  calc cmdWord (unitField w) (opField w) (immField w)
      = w.extractLsb' 8 8 ++ w.extractLsb' 0 8 :=
        congrArg (· ++ immField w) (BitVec.extractLsb'_append_extractLsb'_eq_extractLsb' rfl)
    _ = w.extractLsb' 0 16 := BitVec.extractLsb'_append_extractLsb'_eq_extractLsb' rfl
    _ = w := BitVec.extractLsb'_eq_self

theorem eq_cmdWord_iff {w : CmdWord} {unit op : BitVec 4} {imm : BitVec 8} :
    w = cmdWord unit op imm ↔ unitField w = unit ∧ opField w = op ∧ immField w = imm := by
  constructor
  · rintro rfl
    simp
  · rintro ⟨rfl, rfl, rfl⟩
    exact (cmdWord_fields w).symm

theorem cmdWord_and (u u' o o' : BitVec 4) (m m' : BitVec 8) :
    cmdWord u o m &&& cmdWord u' o' m' = cmdWord (u &&& u') (o &&& o') (m &&& m') := by
  rw [cmdWord, cmdWord, BitVec.and_append, BitVec.and_append, cmdWord]

/-! ### Immediates: the bits an operation uses, the others being 0 (R47, R48, R49) -/

@[simp] theorem requireZero_eq_ok (imm unused : BitVec 8) (i j : Instr) :
    requireZero imm unused i = .ok j ↔ imm &&& unused = 0 ∧ i = j := by
  unfold requireZero
  split
  next hzero => simp [hzero]
  next hone => simp [show ¬ imm &&& unused = 0#8 from hone]

theorem seedImm_unused (seed : BitVec 7) : seed.setWidth 8 &&& 0x80#8 = 0#8 := by revert seed; decide

theorem codeImm_unused (c : BitVec 2) : c.setWidth 8 &&& 0xFC#8 = 0#8 := by revert c; decide

theorem bitImm_unused (b : Bit) : bitImm b &&& 0xFE#8 = 0#8 := by revert b; decide

theorem bitImm_getElem_zero (b : Bit) : (bitImm b)[0] = b := by revert b; decide

theorem seedImm_of_unused {imm : BitVec 8} (h : imm &&& 0x80 = 0) : (imm.setWidth 7).setWidth 8 = imm := by
  revert imm; decide

theorem codeImm_of_unused {imm : BitVec 8} (h : imm &&& 0xFC = 0) {c : BitVec 2} (hc : c = imm.setWidth 2) :
    c.setWidth 8 = imm := by
  subst hc
  revert imm; decide

theorem bitImm_of_unused {imm : BitVec 8} (h : imm &&& 0xFE = 0) {b : Bit} (hb : b = imm.getLsbD 0) :
    bitImm b = imm := by
  subst hb
  revert imm; decide

theorem zeroImm_of_unused {imm : BitVec 8} (h : imm &&& 0xFF = 0) : imm = 0 := by
  revert imm; decide

theorem CodingRate.ofCode_toCode (rate : Option CodingRate) : ofCode (toCode rate) = rate := by
  cases rate with
  | none => rfl
  | some r => cases r <;> rfl

theorem CodingRate.toCode_ofCode (c : BitVec 2) : toCode (ofCode c) = c := by revert c; decide

theorem Modulation.ofCode_toCode (m : Modulation) : ofCode m.toCode = m := by cases m <;> rfl

theorem Modulation.toCode_ofCode (c : BitVec 2) : (ofCode c).toCode = c := by revert c; decide

theorem FieldType.ofCode_toCode (f : FieldType) : ofCode f.toCode = f := by cases f <;> rfl

theorem FieldType.toCode_ofCode (c : BitVec 2) : (ofCode c).toCode = c := by revert c; decide

theorem Polarity.ofBit_toBit (p : Polarity) : ofBit p.toBit = p := by cases p <;> rfl

theorem Polarity.toBit_ofBit (b : Bit) : (ofBit b).toBit = b := by cases b <;> rfl

/-! ### Decoding and encoding -/

/-- The fields of an operation's word select the operation's own arm; there its unused `imm` bits are 0, and the bits
it uses give the operand back, by kind of immediate. -/
theorem decode_encode (i : Instr) : decode (encode i) = .ok i := by
  cases i with
  | scrGen | encClr | ilvEnd | mapEnd | pltStart | pltIns | iftXform | crcInit | crcFin | crcByte =>
    simp [decode, encode]
  | scrSeed seed => simp [decode, encode, seedImm_unused]
  | scrBit b | encBit b | punBit b | ilvBit b | mapBit b => simp [decode, encode, bitImm_unused, bitImm_getElem_zero]
  | pltInsp pol => simp [decode, encode, bitImm_unused, bitImm_getElem_zero, Polarity.ofBit_toBit]
  | punStart rate => simp [decode, encode, codeImm_unused, CodingRate.ofCode_toCode]
  | ilvCfg mod | mapCfg mod => simp [decode, encode, codeImm_unused, Modulation.ofCode_toCode]
  | cpgExt field => simp [decode, encode, codeImm_unused, FieldType.ofCode_toCode]

/-- An arm of `decode`: what it accepts encodes to the word, where the arm's operation encodes to the unit, the op and
the immediate that selected the arm. -/
theorem encode_of_arm {w : CmdWord} {unit op : BitVec 4} {unused : BitVec 8} {i j : Instr}
    (h : requireZero (immField w) unused j = .ok i)
    (hj : immField w &&& unused = 0 → encode j = cmdWord unit op (immField w))
    (hunit : (unitField w).toNat = unit.toNat) (hop : (opField w).toNat = op.toNat) : encode i = w := by
  obtain ⟨hzero, rfl⟩ := (requireZero_eq_ok _ _ _ _).mp h
  rw [hj hzero, ← BitVec.eq_of_toNat_eq hunit, ← BitVec.eq_of_toNat_eq hop, cmdWord_fields]

/-- A word that decodes has no bit that the operation does not give back: the arms of `decode` in their order, by kind
of immediate. -/
theorem encode_of_decode {w : CmdWord} {i : Instr} (h : decode w = .ok i) : encode i = w := by
  unfold decode at h
  split at h
  -- Reserved ops, unit by unit, and reserved units.
  case h_4 | h_7 | h_10 | h_14 | h_18 | h_22 | h_24 | h_26 | h_30 | h_31 => cases h
  -- SCR.SEED and CRC.BYTE.
  case h_1 hunit hop => exact encode_of_arm h (fun hzero => congrArg (cmdWord 1 0) (seedImm_of_unused hzero)) hunit hop
  case h_28 hunit hop => exact encode_of_arm (unit := 9) (op := 1) h (fun _ => rfl) hunit hop
  -- The operations that take one data bit, and PLT.INSP.
  case h_2 hunit hop | h_6 hunit hop | h_9 hunit hop | h_12 hunit hop | h_16 hunit hop =>
    exact encode_of_arm h (fun hzero => congrArg (cmdWord _ _) (bitImm_of_unused hzero rfl)) hunit hop
  case h_21 hunit hop =>
    exact encode_of_arm h (fun hzero => congrArg (cmdWord 6 2) (bitImm_of_unused hzero (Polarity.toBit_ofBit _)))
      hunit hop
  -- PUN.START; ILV.CFG and MAP.CFG; CPG.EXT.
  case h_8 hunit hop =>
    exact encode_of_arm h (fun hzero => congrArg (cmdWord 3 0) (codeImm_of_unused hzero (CodingRate.toCode_ofCode _)))
      hunit hop
  case h_11 hunit hop | h_15 hunit hop =>
    exact encode_of_arm h (fun hzero => congrArg (cmdWord _ _) (codeImm_of_unused hzero (Modulation.toCode_ofCode _)))
      hunit hop
  case h_25 hunit hop =>
    exact encode_of_arm h (fun hzero => congrArg (cmdWord 8 0) (codeImm_of_unused hzero (FieldType.toCode_ofCode _)))
      hunit hop
  -- The operations without an immediate.
  case h_3 hunit hop | h_5 hunit hop | h_13 hunit hop | h_17 hunit hop | h_19 hunit hop | h_20 hunit hop |
      h_23 hunit hop | h_27 hunit hop | h_29 hunit hop =>
    exact encode_of_arm h (fun hzero => congrArg (cmdWord _ _) (zeroImm_of_unused hzero).symm) hunit hop

/-- The words that decode are those that `encode` gives. -/
theorem decode_eq_ok_iff (w : CmdWord) (i : Instr) : decode w = .ok i ↔ encode i = w := by
  constructor
  · exact encode_of_decode
  · rintro rfl
    exact decode_encode i

/-- Settles O7. -/
theorem decodeEncodeRoundTrip : Obligations.DecodeEncodeRoundTrip := decode_encode

/-- Settles O8. -/
theorem encodeDecodeRoundTrip : Obligations.EncodeDecodeRoundTrip := fun _ _ h => encode_of_decode h

/-- Settles O11, `decode` evaluated on each word. -/
theorem specWordsDecode : Obligations.SpecWordsDecode := by
  unfold Obligations.SpecWordsDecode
  decide

namespace Machine

/-! ### The rows of R46 -/

/-- Of R46's rows the word of an operation matches its own only. -/
theorem filter_matchesRow_encode (i : Instr) :
    opcodeRows.filter (matchesRow (encode i)) = [Laws.TableRow.rowOf i] := by
  cases i with
  | scrSeed seed => exact Laws.TableRow.scrSeed seed
  | scrBit b => exact Laws.TableRow.scrBit b
  | scrGen => exact Laws.TableRow.scrGen
  | encClr => exact Laws.TableRow.encClr
  | encBit b => exact Laws.TableRow.encBit b
  | punStart rate => exact Laws.TableRow.punStart rate
  | punBit b => exact Laws.TableRow.punBit b
  | ilvCfg mod => exact Laws.TableRow.ilvCfg mod
  | ilvBit b => exact Laws.TableRow.ilvBit b
  | ilvEnd => exact Laws.TableRow.ilvEnd
  | mapCfg mod => exact Laws.TableRow.mapCfg mod
  | mapBit b => exact Laws.TableRow.mapBit b
  | mapEnd => exact Laws.TableRow.mapEnd
  | pltStart => exact Laws.TableRow.pltStart
  | pltIns => exact Laws.TableRow.pltIns
  | pltInsp pol => exact Laws.TableRow.pltInsp pol
  | iftXform => exact Laws.TableRow.iftXform
  | cpgExt field => exact Laws.TableRow.cpgExt field
  | crcInit => exact Laws.TableRow.crcInit
  | crcByte byte => exact Laws.TableRow.crcByte byte
  | crcFin => exact Laws.TableRow.crcFin

/-- A row whose match and mask are those of a unit, an op and unused `imm` bits (R46). -/
theorem matchesRow_cmdWord_iff (w : CmdWord) (unit op : BitVec 4) (unused : BitVec 8) :
    matchesRow w (cmdWord unit op 0, cmdWord 15 15 unused) = true ↔
      unitField w = unit ∧ opField w = op ∧ immField w &&& unused = 0 := by
  have hall : ∀ f : BitVec 4, f &&& 15 = f := by decide
  rw [matchesRow, beq_iff_eq]
  conv_lhs => rw [← cmdWord_fields w, cmdWord_and, hall, hall]
  simp [eq_cmdWord_iff]

/-- Unit, op and unused `imm` bits of R46's rows, in its order. -/
def rowFields : List (BitVec 4 × BitVec 4 × BitVec 8) :=
  [(1, 0, 0x80), (1, 1, 0xFE), (1, 2, 0xFF), (2, 0, 0xFF), (2, 1, 0xFE), (3, 0, 0xFC), (3, 1, 0xFE),
   (4, 0, 0xFC), (4, 1, 0xFE), (4, 2, 0xFF), (5, 0, 0xFC), (5, 1, 0xFE), (5, 2, 0xFF), (6, 0, 0xFF), (6, 1, 0xFF),
   (6, 2, 0xFE), (7, 0, 0xFF), (8, 0, 0xFC), (9, 0, 0xFF), (9, 1, 0x00), (9, 2, 0xFF)]

theorem opcodeRows_eq : opcodeRows = rowFields.map fun f => (cmdWord f.1 f.2.1 0, cmdWord 15 15 f.2.2) := by decide

/-- The unit, the op and the unused `imm` bits of a row let a word decode. -/
theorem decode_ok_of_fields {w : CmdWord} :
    ∀ f ∈ rowFields, unitField w = f.1 → opField w = f.2.1 → immField w &&& f.2.2 = 0 →
      ∃ i, decode w = .ok i := by
  simp only [rowFields, List.forall_mem_cons, List.not_mem_nil, false_implies, implies_true, and_true]
  and_intros
  all_goals
    intro hunit hop hzero
    simp only [decode, hunit, hop]
    exact ⟨_, (requireZero_eq_ok _ _ _ _).mpr ⟨hzero, rfl⟩⟩

theorem decode_ok_iff_matchesRow (w : CmdWord) :
    (∃ i, decode w = .ok i) ↔ ∃ row ∈ opcodeRows, matchesRow w row = true := by
  constructor
  · rintro ⟨i, hi⟩
    have hrow : Laws.TableRow.rowOf i ∈ opcodeRows.filter (matchesRow w) := by
      rw [← encode_of_decode hi, filter_matchesRow_encode]
      exact List.mem_singleton_self _
    exact ⟨_, List.mem_filter.mp hrow⟩
  · rintro ⟨row, hrow, hmatch⟩
    rw [opcodeRows_eq, List.mem_map] at hrow
    obtain ⟨f, hf, rfl⟩ := hrow
    obtain ⟨hunit, hop, hzero⟩ := (matchesRow_cmdWord_iff w _ _ _).mp hmatch
    exact decode_ok_of_fields f hf hunit hop hzero

/-- Settles O9: a word that decodes is the word of an operation, which matches one row; another matches none. -/
theorem legalWordsMatchOneRow : Obligations.LegalWordsMatchOneRow := by
  intro w
  refine ⟨decode_ok_iff_matchesRow w, ?_⟩
  by_cases hlegal : ∃ i, decode w = .ok i
  · obtain ⟨i, hi⟩ := hlegal
    simp [← encode_of_decode hi, filter_matchesRow_encode]
  · have hnone : opcodeRows.filter (matchesRow w) = [] :=
      List.filter_eq_nil_iff.mpr fun row hrow hmatch =>
        hlegal ((decode_ok_iff_matchesRow w).mpr ⟨row, hrow, hmatch⟩)
    simp [hnone]

theorem decode_error_of_no_row {w : CmdWord} (h : ∀ row ∈ opcodeRows, matchesRow w row = false) :
    ∃ e, decode w = .error e := by
  cases hdec : decode w with
  | error e => exact ⟨e, rfl⟩
  | ok i =>
    obtain ⟨row, hrow, hmatch⟩ := (decode_ok_iff_matchesRow w).mp ⟨i, hdec⟩
    simp [h row hrow] at hmatch

/-- The port raises on a word that does not decode, whatever operand comes with it (R161). -/
theorem step_illegal {s : State} {r : Request} {rest : List Input} {e : IllegalWord}
    (hin : s.inbox = .request r :: rest) (hdec : decode r.cmd = .error e) :
    step s = .next ((s.accept r rest).raise .illegalCommand) := by
  simp [step, serve, hin, performRequest, hdec, raising]

/-- Settles O5. -/
theorem illegalWordAnswersIllegalCommand : Obligations.IllegalWordAnswersIllegalCommand := by
  intro s r rest hin hno
  obtain ⟨e, hdec⟩ := decode_error_of_no_row hno
  exact step_illegal hin hdec

end Machine

/-! ### How many words decode -/

/-- The operations but SCR.SEED, CRC.BYTE and CRC.FIN, with every immediate, in the order of the words. -/
def fewValuedInstrs : List Instr :=
  [.scrBit false, .scrBit true, .scrGen, .encClr, .encBit false, .encBit true,
   .punStart (some .half), .punStart (some .twoThirds), .punStart (some .threeQuarters), .punStart none,
   .punBit false, .punBit true,
   .ilvCfg .bpsk, .ilvCfg .qpsk, .ilvCfg .qam16, .ilvCfg .qam64, .ilvBit false, .ilvBit true, .ilvEnd,
   .mapCfg .bpsk, .mapCfg .qpsk, .mapCfg .qam16, .mapCfg .qam64, .mapBit false, .mapBit true, .mapEnd,
   .pltStart, .pltIns, .pltInsp .plus, .pltInsp .minus, .iftXform,
   .cpgExt .stf, .cpgExt .ltf, .cpgExt .signal, .cpgExt .data, .crcInit]

/-- Every operation with every immediate, in the order of the words. -/
def allInstrs : List Instr :=
  (List.range 128).map (fun n => .scrSeed (BitVec.ofNat 7 n)) ++ fewValuedInstrs ++
    (List.range 256).map (fun n => .crcByte (BitVec.ofNat 8 n)) ++ [.crcFin]

theorem length_allInstrs : allInstrs.length = 421 := by simp [allInstrs, fewValuedInstrs]

theorem mem_allInstrs_of_few {i : Instr} (h : i ∈ fewValuedInstrs) : i ∈ allInstrs :=
  List.mem_append_left _ (List.mem_append_left _ (List.mem_append_right _ h))

theorem mem_allInstrs (i : Instr) : i ∈ allInstrs := by
  cases i with
  | scrSeed seed =>
    refine List.mem_append_left _ (List.mem_append_left _ (List.mem_append_left _ (List.mem_map.mpr ?_)))
    exact ⟨seed.toNat, List.mem_range.mpr seed.isLt, by rw [BitVec.ofNat_toNat, BitVec.setWidth_eq]⟩
  | crcByte byte =>
    refine List.mem_append_left _ (List.mem_append_right _ (List.mem_map.mpr ?_))
    exact ⟨byte.toNat, List.mem_range.mpr byte.isLt, by rw [BitVec.ofNat_toNat, BitVec.setWidth_eq]⟩
  | crcFin => exact List.mem_append_right _ (List.mem_singleton_self _)
  | scrBit b | encBit b | punBit b | ilvBit b | mapBit b => exact mem_allInstrs_of_few (by revert b; decide)
  | punStart rate =>
    refine mem_allInstrs_of_few ?_
    cases rate with
    | none => decide
    | some r => cases r <;> decide
  | ilvCfg mod | mapCfg mod => exact mem_allInstrs_of_few (by cases mod <;> decide)
  | pltInsp pol => exact mem_allInstrs_of_few (by cases pol <;> decide)
  | cpgExt field => exact mem_allInstrs_of_few (by cases field <;> decide)
  | scrGen | encClr | ilvEnd | mapEnd | pltStart | pltIns | iftXform | crcInit =>
    exact mem_allInstrs_of_few (by decide)

/-- The words of all operations, as numbers. -/
def legalWords : List Nat := allInstrs.map fun i => (encode i).toNat

theorem legalWords_increase : legalWords.IsChain (· < ·) := by decide +kernel

theorem legalWords_nodup : legalWords.Nodup :=
  (List.isChain_iff_pairwise.mp legalWords_increase).imp Nat.ne_of_lt

theorem mem_legalWords_iff (n : Nat) : n ∈ legalWords ↔ ∃ i, (encode i).toNat = n := by
  simp [legalWords, mem_allInstrs]

theorem decodeTableWord_isSome_iff (w : CmdWord) :
    (decodeTableWord 16 w.toNat).isSome = true ↔ w.toNat ∈ legalWords := by
  have hword : tableWord 16 w.toNat = w := by
    rw [tableWord, Nat.mod_eq_of_lt w.isLt, BitVec.ofNat_toNat, BitVec.setWidth_eq]
  have hdec : (decodeTableWord 16 w.toNat).isSome = true ↔ ∃ i, decode w = .ok i := by
    rw [decodeTableWord, hword]
    split <;> simp [*]
  simp only [hdec, decode_eq_ok_iff, mem_legalWords_iff, BitVec.toNat_inj]

/-- Settles O10: the words that decode are those of `allInstrs`, each once. -/
theorem legalWordCount : Obligations.LegalWordCount := by
  have hperm : ((List.range 65536).filter fun n => (decodeTableWord 16 n).isSome).Perm legalWords := by
    refine (List.perm_ext_iff_of_nodup (List.nodup_range.filter _) legalWords_nodup).mpr fun n => ?_
    rw [List.mem_filter, List.mem_range]
    constructor
    · rintro ⟨hn, hsome⟩
      exact (decodeTableWord_isSome_iff (BitVec.ofNatLT n hn)).mp hsome
    · intro hmem
      obtain ⟨i, rfl⟩ := (mem_legalWords_iff n).mp hmem
      exact ⟨(encode i).isLt, (decodeTableWord_isSome_iff (encode i)).mpr hmem⟩
  exact hperm.length_eq.trans ((List.length_map _).trans length_allInstrs)

end Sys2Proof
end

section
/-! Proofs on the runs of SCR and ENC: seeding and generating answers `lfsr` (40_scrambler_lfsr.md R61), clearing and
encoding answers `encode` (41_conv_encoder.md R71), the registers being the document's bit lists. -/

namespace Sys2Proof.Machine

theorem execAll_cons_of_next {i : Instr} {s m : State} (h : exec i s = .next m) (is : List Instr) :
    execAll (i :: is) s = execAll is m := by
  simp [execAll, h]

theorem execAll_append_of_next {is : List Instr} {s t : State} (h : execAll is s = .next t) (js : List Instr) :
    execAll (is ++ js) s = execAll js t := by
  induction is generalizing s with
  | nil => cases h; rfl
  | cons i is ih =>
    obtain ⟨m, hm, hrest⟩ := (execAll_cons_eq_next i is s t).mp h
    rw [List.cons_append, execAll_cons_of_next hm, ih hrest]

/-- A register as the document's list, bit 0 at the front. -/
def registerBits {n : Nat} (r : BitVec n) : List Bit := (List.range n).map r.getLsbD

/-! ### The generator -/

theorem seedBits_eq_registerBits (seed : BitVec 7) : seedBits seed = registerBits seed := rfl

/-- The register's step is the list's: the feedback enters at the front, the last bit falls out. -/
theorem registerBits_lfsrNext (r : BitVec 7) :
    registerBits (lfsrNext r) = lfsrFeedback r :: (registerBits r).take 6 := by
  revert r; decide

theorem lfsrFrom_succ_registerBits (n : Nat) (r : BitVec 7) :
    lfsrFrom (n + 1) (registerBits r) = lfsrFeedback r :: lfsrFrom n (registerBits (lfsrNext r)) := by
  rw [registerBits_lfsrNext]
  rfl

/-- SCR.GEN answers the feedback bit (R64). -/
theorem exec_scrGen (s : State) :
    exec .scrGen s = .next ((s.setScr ⟨lfsrNext s.scr.lfsr⟩).respond .ok [.bit (lfsrFeedback s.scr.lfsr)]) := by
  simp [exec, execScrGen, scrambleStep, answer, bitResult]

theorem execAll_scrGen (n : Nat) (s : State) :
    ∃ t, execAll (List.replicate n .scrGen) s = .next t ∧
      t.outbox = s.outbox ++ (lfsrFrom n (registerBits s.scr.lfsr)).map (fun b => ⟨.ok, [.bit b]⟩) := by
  induction n generalizing s with
  | zero => exact ⟨s, rfl, by simp [lfsrFrom]⟩
  | succ n ih =>
    obtain ⟨t, hrun, hout⟩ := ih ((s.setScr ⟨lfsrNext s.scr.lfsr⟩).respond .ok [.bit (lfsrFeedback s.scr.lfsr)])
    refine ⟨t, (execAll_cons_of_next (exec_scrGen s) _).trans hrun, ?_⟩
    simp [hout, lfsrFrom_succ_registerBits]

theorem lfsrFrom_length (n : Nat) (r : List Bit) : (lfsrFrom n r).length = n := by
  induction n generalizing r with
  | zero => rfl
  | succ n ih => simp [lfsrFrom, ih]

/-- The bits that have left the register, before those it puts out: a step moves its last bit from the one to the
other. -/
theorem reverse_append_lfsrFrom_succ {r : List Bit} (hr : r.length = 7) (n : Nat) :
    r.reverse ++ lfsrFrom (n + 1) r = r.getD 6 false ::
      (((r.getD 6 false ^^ r.getD 3 false) :: r.take 6).reverse ++
        lfsrFrom n ((r.getD 6 false ^^ r.getD 3 false) :: r.take 6)) := by
  match r, hr with
  | [_, _, _, _, _, _, _], _ => rfl

/-- Every output is the xor of those 4 and 7 before it, the register's bits, the last first, standing for the 7 before
the first (R61). -/
theorem lfsrFrom_recurrence (n : Nat) {r : List Bit} (hr : r.length = 7) {k : Nat} (hk : k < n) :
    (r.reverse ++ lfsrFrom n r).getD (k + 7) false
      = ((r.reverse ++ lfsrFrom n r).getD (k + 3) false ^^ (r.reverse ++ lfsrFrom n r).getD k false) := by
  induction n generalizing r k with
  | zero => omega
  | succ n ih =>
    cases k with
    | zero =>
      match r, hr with
      | [_, _, _, r₃, _, _, r₆], _ => exact Bool.xor_comm r₆ r₃
    | succ k =>
      rw [reverse_append_lfsrFrom_succ hr]
      exact ih (by simp [hr]) (by omega)

theorem lfsr_recurrence {n k : Nat} (seed : BitVec 7) (h7 : 7 ≤ k) (hk : k < n) :
    (lfsr n seed).getD k false = ((lfsr n seed).getD (k - 4) false ^^ (lfsr n seed).getD (k - 7) false) := by
  have hlen : (seedBits seed).length = 7 := by simp [seedBits]
  have hout (i : Nat) :
      ((seedBits seed).reverse ++ lfsrFrom n (seedBits seed)).getD (i + 7) false = (lfsr n seed).getD i false := by
    rw [List.getD_append_right _ _ _ _ (by simp [hlen])]
    simp [hlen, lfsr]
  obtain ⟨j, rfl⟩ := Nat.exists_eq_add_of_le' h7
  have hrec := lfsrFrom_recurrence n hlen hk
  rwa [hout, show j + 7 + 3 = (j + 3) + 7 by rfl, hout, hout] at hrec

/-- Settles O25. -/
theorem generateRunIsLfsr : Obligations.GenerateRunIsLfsr := by
  intro n seed s
  refine ⟨?run, lfsrFrom_length n _, fun k => lfsr_recurrence seed⟩
  have hseed : exec (.scrSeed seed) s = .next ((s.setScr ⟨seed⟩).respond .ok []) := rfl
  obtain ⟨t, hrun, hout⟩ := execAll_scrGen n ((s.setScr ⟨seed⟩).respond .ok [])
  exact ⟨t, (execAll_cons_of_next hseed _).trans hrun, by simp [hout, lfsr, seedBits_eq_registerBits]⟩

/-! ### The encoder -/

theorem parityWith_generator1 (b : Bit) (h : BitVec 6) :
    parityWith generator1 (b :: registerBits h) = encoderA b h := by
  revert b h; decide

theorem parityWith_generator2 (b : Bit) (h : BitVec 6) :
    parityWith generator2 (b :: registerBits h) = encoderB b h := by
  revert b h; decide

/-- The history's step is the list's: the input bit enters at the front, the oldest falls out. -/
theorem registerBits_encoderNext (b : Bit) (h : BitVec 6) :
    registerBits (encoderNext b h) = b :: (registerBits h).take 5 := by
  revert b h; decide

theorem convEncodeFrom_cons_registerBits (b : Bit) (bs : List Bit) (h : BitVec 6) :
    convEncodeFrom (registerBits h) (b :: bs)
      = encoderA b h :: encoderB b h :: convEncodeFrom (registerBits (encoderNext b h)) bs := by
  rw [convEncodeFrom, parityWith_generator1, parityWith_generator2, registerBits_encoderNext]

theorem convEncodeFrom_length (h bits : List Bit) : (convEncodeFrom h bits).length = 2 * bits.length := by
  induction bits generalizing h with
  | nil => rfl
  | cons b bs ih => simp only [convEncodeFrom, List.length_cons, ih]; omega

/-- ENC.BIT for every bit answers a pair of bits each, together the code from the history on. -/
theorem execAll_encBit (bits : List Bit) (s : State) :
    ∃ (t : State) (pairs : List (Bit × Bit)), execAll (bits.map .encBit) s = .next t ∧
      t.outbox = s.outbox ++ pairs.map (fun p => ⟨.ok, [.bit p.1, .bit p.2]⟩) ∧
      pairs.flatMap (fun p => [p.1, p.2]) = convEncodeFrom (registerBits s.enc.hist) bits := by
  induction bits generalizing s with
  | nil => exact ⟨s, [], rfl, by simp, rfl⟩
  | cons b bs ih =>
    have hbit : exec (.encBit b) s = .next ((s.setEnc ⟨encoderNext b s.enc.hist⟩).respond .ok
      [.bit (encoderA b s.enc.hist), .bit (encoderB b s.enc.hist)]) := rfl
    obtain ⟨t, pairs, hrun, hout, hcode⟩ := ih _
    refine ⟨t, (encoderA b s.enc.hist, encoderB b s.enc.hist) :: pairs, (execAll_cons_of_next hbit _).trans hrun,
      by simp [hout], ?_⟩
    simpa [convEncodeFrom_cons_registerBits] using hcode

/-- The history that ENC.CLR leaves. -/
theorem registerBits_zero : registerBits (0 : BitVec 6) = List.replicate 6 false := rfl

/-- Settles O31. -/
theorem encodeRunIsSequenceFunction : Obligations.EncodeRunIsSequenceFunction := by
  intro bits s
  refine ⟨?run, convEncodeFrom_length _ bits⟩
  have hclr : exec .encClr s = .next ((s.setEnc ⟨0⟩).respond .ok []) := rfl
  obtain ⟨t, pairs, hrun, hout, hcode⟩ := execAll_encBit bits ((s.setEnc ⟨0⟩).respond .ok [])
  exact ⟨t, pairs, (execAll_cons_of_next hclr _).trans hrun, by simp [hout],
    by simpa [convEncode, ← registerBits_zero] using hcode⟩

end Sys2Proof.Machine
end

section
/-! Proofs on the units that collect bits into blocks: ILV and MAP take one bit at a time and answer with the last
bit of each block, so that their runs answer the document's sequence functions block by block (43_bit_interleaver.md
R92, 44_qam_mapper_gray.md R104). -/

namespace Sys2Proof.Machine

/-! ### Sequences block by block -/

/-- What `f` makes of every whole block of `n` bits, one after another. The bits after the last whole block do not
count. -/
def perBlock {α : Type} (n : Nat) (f : List Bit → List α) (bits : List Bit) : List α :=
  (List.range (bits.length / n)).flatMap fun t => f ((bits.drop (t * n)).take n)

/-- The bits after the last whole block. -/
def leftOver (n : Nat) (bits : List Bit) : List Bit := bits.drop (bits.length / n * n)

section
variable {α : Type} {n : Nat} (f : List Bit → List α) {p : List Bit} (bits : List Bit)

theorem perBlock_of_lt (hp : p.length < n) : perBlock n f p = [] := by
  simp [perBlock, Nat.div_eq_of_lt hp]

theorem leftOver_of_lt (hp : p.length < n) : leftOver n p = p := by
  simp [leftOver, Nat.div_eq_of_lt hp]

theorem length_append_div (hn : 0 < n) (hp : p.length = n) :
    (p ++ bits).length / n = bits.length / n + 1 := by
  rw [List.length_append, hp, Nat.add_div_left _ hn]

theorem drop_append_succ_mul (hp : p.length = n) (t : Nat) :
    (p ++ bits).drop ((t + 1) * n) = bits.drop (t * n) := by
  rw [Nat.succ_mul, Nat.add_comm, ← hp, List.drop_length_add_append]

/-- A whole block at the front. -/
theorem perBlock_append (hn : 0 < n) (hp : p.length = n) :
    perBlock n f (p ++ bits) = f p ++ perBlock n f bits := by
  rw [perBlock, length_append_div bits hn hp, List.range_succ_eq_map, List.flatMap_cons, List.flatMap_map]
  simp only [Nat.succ_eq_add_one, drop_append_succ_mul bits hp]
  simp [← hp, perBlock]

theorem leftOver_append (hn : 0 < n) (hp : p.length = n) : leftOver n (p ++ bits) = leftOver n bits := by
  rw [leftOver, length_append_div bits hn hp, drop_append_succ_mul bits hp, leftOver]

theorem leftOver_length : (leftOver n bits).length = bits.length % n := by
  rw [leftOver, List.length_drop, Nat.mod_eq_sub, Nat.mul_comm]

theorem map_perBlock {β : Type} (g : α → β) : (perBlock n f bits).map g = perBlock n (fun q => (f q).map g) bits := by
  rw [perBlock, List.map_flatMap, perBlock]

theorem perBlock_length {k : Nat} (hf : ∀ q, (f q).length = k) :
    (perBlock n f bits).length = bits.length / n * k := by
  simp [perBlock, hf]

/-- Where every block gives `n` elements, element `j` of block `t`. -/
theorem flatMap_range_getElem? {g : Nat → List α} (hg : ∀ t, (g t).length = n) {q t j : Nat} (ht : t < q)
    (hj : j < n) :
    ((List.range q).flatMap g)[t * n + j]? = (g t)[j]? := by
  induction q with
  | zero => omega
  | succ q ih =>
    have hlen : ((List.range q).flatMap g).length = q * n := by simp [hg]
    rw [List.range_succ, List.flatMap_append, List.flatMap_singleton]
    rcases Nat.lt_succ_iff_lt_or_eq.mp ht with hlt | rfl
    · have hindex : t * n + j < q * n := by
        calc t * n + j < (t + 1) * n := by rw [Nat.succ_mul]; omega
          _ ≤ q * n := Nat.mul_le_mul_right n hlt
      rw [List.getElem?_append_left (by omega), ih hlt]
    · rw [List.getElem?_append_right (by omega), hlen, Nat.add_sub_cancel_left]

end

/-! ### Runs of a unit that collects blocks -/

/-- `op` takes one bit, and `n` bits are a block: it answers nothing until the block's last bit, and then what `emit`
makes of the block. `Holds p s` says that the unit holds the partial block `p` in state `s`. -/
structure CollectsBlocks (op : Bit → Instr) (n : Nat) (emit : List Bit → List Datum)
    (Holds : List Bit → State → Prop) : Prop where
  collect : ∀ b p s, Holds p s → p.length + 1 < n → ∃ t, exec (op b) s = .next t ∧
    t.outbox = s.outbox ++ [⟨.ok, []⟩] ∧ Holds (p ++ [b]) t
  complete : ∀ b p s, Holds p s → p.length + 1 = n → ∃ t, exec (op b) s = .next t ∧
    t.outbox = s.outbox ++ [⟨.ok, emit (p ++ [b])⟩] ∧ Holds [] t

/-- The run over any bits answers block by block, whatever stood in the unit's cells, and holds what is left over. -/
theorem CollectsBlocks.run {op : Bit → Instr} {n : Nat} {emit : List Bit → List Datum}
    {Holds : List Bit → State → Prop} (hu : CollectsBlocks op n emit Holds) (bits : List Bit) {p : List Bit}
    {s : State} (hp : Holds p s) (hlt : p.length < n) :
    ∃ (t : State) (rs : List Response), execAll (bits.map op) s = .next t ∧ t.outbox = s.outbox ++ rs ∧
      rs.length = bits.length ∧ (∀ r ∈ rs, r.status = .ok) ∧
      rs.flatMap (fun r => r.dout) = perBlock n emit (p ++ bits) ∧ Holds (leftOver n (p ++ bits)) t := by
  induction bits generalizing p s with
  | nil =>
    refine ⟨s, [], rfl, by simp, rfl, by simp, ?_, ?_⟩
    · simp [perBlock_of_lt emit hlt]
    · simpa [leftOver_of_lt hlt] using hp
  | cons b bs ih =>
    have happend : p ++ b :: bs = (p ++ [b]) ++ bs := by simp
    rcases Nat.lt_or_eq_of_le (Nat.succ_le_of_lt hlt) with hmore | hlast
    · obtain ⟨m, hexec, hm, hHolds⟩ := hu.collect b p s hp hmore
      obtain ⟨t, rs, hrun, hout, hlen, hok, hdout, hrest⟩ := ih hHolds (by simpa using hmore)
      refine ⟨t, ⟨.ok, []⟩ :: rs, (execAll_cons_of_next hexec _).trans hrun, by simp [hout, hm], by simp [hlen],
        by simpa using hok, ?_, happend ▸ hrest⟩
      simpa using hdout
    · have hn : 0 < n := by omega
      have hblock : (p ++ [b]).length = n := by simpa using hlast
      obtain ⟨m, hexec, hm, hHolds⟩ := hu.complete b p s hp hlast
      obtain ⟨t, rs, hrun, hout, hlen, hok, hdout, hrest⟩ := ih hHolds hn
      refine ⟨t, ⟨.ok, emit (p ++ [b])⟩ :: rs, (execAll_cons_of_next hexec _).trans hrun, by simp [hout, hm],
        by simp [hlen], by simpa using hok, ?_, ?_⟩
      · rw [happend, perBlock_append emit bs hn hblock, List.flatMap_cons, hdout, List.nil_append]
      · rwa [happend, leftOver_append bs hn hblock]

/-- A whole run, from the operation that selects the block size to the one that reports what is left over. -/
theorem CollectsBlocks.run_cfg_end {op : Bit → Instr} {n : Nat} {emit : List Bit → List Datum}
    {Holds : List Bit → State → Prop} (hu : CollectsBlocks op n emit Holds) (hn : 0 < n) (bits : List Bit)
    {cfg fin : Instr} {s : State} {Rest : State → Prop}
    (hcfg : ∃ m, exec cfg s = .next m ∧ m.outbox = s.outbox ++ [⟨.ok, []⟩] ∧ Holds [] m)
    (hfin : ∀ p m, Holds p m → ∃ t, exec fin m = .next t ∧ Rest t ∧
      t.outbox = m.outbox ++ [⟨if p.length = 0 then .ok else .malformedBitSequence, []⟩]) :
    ∃ (t : State) (rs : List Response), execAll (cfg :: bits.map op ++ [fin]) s = .next t ∧ Rest t ∧
      (∀ r ∈ rs, r.status = .ok) ∧ rs.length = 1 + bits.length ∧
      t.outbox = s.outbox ++ rs ++ [⟨if bits.length % n = 0 then .ok else .malformedBitSequence, []⟩] ∧
      rs.flatMap (fun r => r.dout) = perBlock n emit bits := by
  obtain ⟨m, hexec, hm, hempty⟩ := hcfg
  obtain ⟨v, rs, hrun, hout, hlen, hok, hdout, hrest⟩ := hu.run bits hempty hn
  obtain ⟨t, hend, hRest, ht⟩ := hfin _ v hrest
  rw [List.nil_append, leftOver_length] at ht
  refine ⟨t, ⟨.ok, []⟩ :: rs, ?_, hRest, by simpa using hok, by simp [hlen, Nat.add_comm],
    by simp [ht, hout, hm], hdout⟩
  rw [List.cons_append, execAll_cons_of_next hexec, execAll_append_of_next hrun, execAll_cons_of_next hend, execAll]

/-! ### The cells of a unit that collects blocks -/

/-- The bits of `p` stand in the cells, bit `k` at `place k`. -/
def Stored {c : Nat} (cells : Vector Bit c) (place : Nat → Nat) (p : List Bit) : Prop :=
  ∀ k, k < p.length → cells[place k]? = p[k]?

theorem stored_nil {c : Nat} (cells : Vector Bit c) (place : Nat → Nat) : Stored cells place [] := nofun

/-- The next bit written at its place stands there, beside those before it, which have other places. -/
theorem Stored.append {c : Nat} {cells : Vector Bit c} {place : Nat → Nat} {p : List Bit} (h : Stored cells place p)
    (hplace : place p.length < c) (hne : ∀ k, k < p.length → place k ≠ place p.length) (b : Bit) :
    Stored (cells.setIfInBounds (place p.length) b) place (p ++ [b]) := by
  intro k hk
  rcases Nat.lt_succ_iff_lt_or_eq.mp (by simpa using hk) with hlt | rfl
  · rw [Vector.getElem?_setIfInBounds_ne (hne k hlt).symm, List.getElem?_append_left hlt, h k hlt]
  · rw [Vector.getElem?_setIfInBounds_self_of_lt hplace, List.getElem?_concat_length]

/-- Counting a bit of a block that fits the fill register. -/
theorem fill_succ_toNat {w : Nat} (f : BitVec w) {k n : Nat} (hf : f.toNat = k) (hk : k + 1 < n) (hn : n ≤ 2 ^ w) :
    (f + 1).toNat = k + 1 := by
  have hone : (1 : BitVec w).toNat = 1 := Nat.mod_eq_of_lt (show 1 < 2 ^ w by omega)
  rw [BitVec.toNat_add, hone, hf, Nat.mod_eq_of_lt (by omega)]

theorem fill_eq_zero_iff {w : Nat} (f : BitVec w) {k : Nat} (hf : f.toNat = k) : f = 0 ↔ k = 0 := by
  rw [← hf, ← BitVec.toNat_inj]
  simp

/-! ### The interleaver's index map -/

/-- The input position of output position `j`: the two permutations of R87 undone, the second first. -/
def interleaveOrigin (m : Modulation) (j : Nat) : Nat :=
  let i := interleaveShift m * (j / interleaveShift m) + (j + 16 * j / nCbps m) % interleaveShift m
  16 * i - (nCbps m - 1) * (16 * i / nCbps m)

theorem interleaveOrigin_interleaveIndex {m : Modulation} {k : Nat} (hk : k < nCbps m) :
    interleaveOrigin m (interleaveIndex m k) = k := by
  have key : ∀ k < nCbps m, interleaveOrigin m (interleaveIndex m k) = k := by cases m <;> decide +kernel
  exact key k hk

/-- Every output position is that of an input position. -/
theorem exists_interleaveIndex_eq {m : Modulation} {j : Nat} (hj : j < nCbps m) :
    ∃ k, k < nCbps m ∧ interleaveIndex m k = j := by
  have key : ∀ j < nCbps m, interleaveOrigin m j < nCbps m ∧ interleaveIndex m (interleaveOrigin m j) = j := by
    cases m <;> decide +kernel
  exact ⟨_, key j hj⟩

theorem interleaveIndex_ne {m : Modulation} {k l : Nat} (hk : k < nCbps m) (hl : l < nCbps m) (hne : k ≠ l) :
    interleaveIndex m k ≠ interleaveIndex m l := by
  intro h
  apply hne
  rw [← interleaveOrigin_interleaveIndex hk, h, interleaveOrigin_interleaveIndex hl]

theorem interleaveSource_interleaveIndex {m : Modulation} {k : Nat} (hk : k < nCbps m) :
    interleaveSource m (interleaveIndex m k) = k := by
  rw [interleaveSource, List.findIdx_eq (by simpa using hk)]
  refine ⟨by simp, fun l hl => ?_⟩
  simpa using interleaveIndex_ne (hl.trans hk) hk hl.ne

theorem interleaveSymbol_length (m : Modulation) (q : List Bit) : (interleaveSymbol m q).length = nCbps m := by
  simp [interleaveSymbol]

/-- Bit `k` of a symbol goes to position `J(mod, k)` (R92). -/
theorem interleaveSymbol_interleaveIndex {m : Modulation} {q : List Bit} (hq : q.length = nCbps m) {k : Nat}
    (hk : k < nCbps m) : (interleaveSymbol m q)[interleaveIndex m k]? = q[k]? := by
  rw [interleaveSymbol, List.getElem?_map, List.getElem?_range (interleaveIndex_lt m k hk), Option.map_some,
    interleaveSource_interleaveIndex hk, List.getD_eq_getElem?_getD, List.getElem?_eq_getElem (by omega),
    Option.getD_some]

/-- The buffer with every bit of a symbol at its place holds the interleaved symbol. -/
theorem Stored.take_eq_interleaveSymbol {m : Modulation} {buf : Vector Bit 288} {q : List Bit}
    (h : Stored buf (interleaveIndex m) q) (hq : q.length = nCbps m) :
    buf.toList.take (nCbps m) = interleaveSymbol m q := by
  apply List.ext_getElem?
  intro j
  by_cases hj : j < nCbps m
  · obtain ⟨k, hk, rfl⟩ := exists_interleaveIndex_eq hj
    rw [List.getElem?_take_of_lt hj, interleaveSymbol_interleaveIndex hq hk, ← h k (hq ▸ hk)]
    simp
  · rw [List.getElem?_eq_none (by simp; omega), List.getElem?_eq_none (by rw [interleaveSymbol_length]; omega)]

/-! ### ILV -/

/-- ILV holds the partial symbol `p` of modulation `m`. -/
structure HoldsSymbol (m : Modulation) (p : List Bit) (s : State) : Prop where
  mod : s.ilv.mod = m
  fill : s.ilv.fill.toNat = p.length
  buf : Stored s.ilv.buf (interleaveIndex m) p

/-- The bit at its place (R90). -/
theorem HoldsSymbol.stored_append {m : Modulation} {p : List Bit} {s : State} (h : HoldsSymbol m p s)
    (hlt : p.length < nCbps m) (b : Bit) :
    Stored (s.ilv.buf.setIfInBounds (interleaveIndex s.ilv.mod s.ilv.fill.toNat) b) (interleaveIndex m)
      (p ++ [b]) := by
  rw [h.mod, h.fill]
  exact h.buf.append ((interleaveIndex_lt m _ hlt).trans_le (nCbps_le m))
    (fun k hk => interleaveIndex_ne (hk.trans hlt) hlt hk.ne) b

/-- A bit that is not its symbol's last is stored and counted (R90). -/
theorem exec_ilvBit_of_ne (b : Bit) {s : State} (hfill : s.ilv.fill.toNat + 1 ≠ nCbps s.ilv.mod) :
    exec (.ilvBit b) s = .next ((s.setIlv ⟨s.ilv.mod, s.ilv.fill + 1,
      s.ilv.buf.setIfInBounds (interleaveIndex s.ilv.mod s.ilv.fill.toNat) b⟩).respond .ok []) := by
  simp [exec, execIlvBit, hfill, answer]

/-- A symbol's last bit is stored and the symbol emitted (R90). -/
theorem exec_ilvBit_of_eq (b : Bit) {s : State} (hfill : s.ilv.fill.toNat + 1 = nCbps s.ilv.mod) :
    exec (.ilvBit b) s = .next ((s.setIlv ⟨s.ilv.mod, 0,
      s.ilv.buf.setIfInBounds (interleaveIndex s.ilv.mod s.ilv.fill.toNat) b⟩).respond .ok
      (((s.ilv.buf.setIfInBounds (interleaveIndex s.ilv.mod s.ilv.fill.toNat) b).toList.take
        (nCbps s.ilv.mod)).map .bit)) := by
  simp only [exec, execIlvBit, if_pos hfill, answer, bitResult]

theorem ilvBit_collects (m : Modulation) :
    CollectsBlocks .ilvBit (nCbps m) (fun q => (interleaveSymbol m q).map .bit) (HoldsSymbol m) where
  collect b p s h hmore := by
    have hfill : s.ilv.fill.toNat + 1 ≠ nCbps s.ilv.mod := by rw [h.fill, h.mod]; omega
    refine ⟨_, exec_ilvBit_of_ne b hfill, rfl, h.mod, ?_, h.stored_append (by omega) b⟩
    simpa using fill_succ_toNat s.ilv.fill h.fill hmore ((nCbps_le m).trans (by decide))
  complete b p s h hlast := by
    have hfill : s.ilv.fill.toNat + 1 = nCbps s.ilv.mod := by rw [h.fill, h.mod]; exact hlast
    have hemit := (h.stored_append (by omega) b).take_eq_interleaveSymbol (by simpa using hlast)
    refine ⟨_, exec_ilvBit_of_eq b hfill, ?_, h.mod, rfl, stored_nil _ _⟩
    rw [← hemit, ← h.mod]
    rfl

/-- ILV.CFG with no partial symbol held begins a symbol of the modulation it selects (R89). -/
theorem exec_ilvCfg_begins (m : Modulation) {s : State} (hfill : s.ilv.fill = 0) :
    ∃ t, exec (.ilvCfg m) s = .next t ∧ t.outbox = s.outbox ++ [⟨.ok, []⟩] ∧ HoldsSymbol m [] t := by
  refine ⟨(s.setIlv { s.ilv with mod := m }).respond .ok [], ?_, rfl, rfl, ?_, stored_nil _ _⟩
  · simp [exec, execIlvCfg, hfill, holdsPartial, answer]
  · simp [hfill]

/-- ILV.END leaves no partial symbol and reports one that was held (R91). -/
theorem HoldsSymbol.exec_ilvEnd {m : Modulation} {p : List Bit} {s : State} (h : HoldsSymbol m p s) :
    ∃ t, exec .ilvEnd s = .next t ∧ (t.ilv.fill = 0 ∧ t.ilv.mod = m) ∧
      t.outbox = s.outbox ++ [⟨if p.length = 0 then .ok else .malformedBitSequence, []⟩] := by
  simp only [exec, execIlvEnd, holdsPartial_toNat_iff, ne_eq, fill_eq_zero_iff _ h.fill]
  by_cases hp : p.length = 0
  · rw [if_neg (not_not.mpr hp), if_pos hp]
    exact ⟨_, rfl, ⟨(fill_eq_zero_iff _ h.fill).mpr hp, h.mod⟩, rfl⟩
  · rw [if_pos hp, if_neg hp]
    exact ⟨_, rfl, ⟨rfl, h.mod⟩, rfl⟩

theorem interleave_eq_perBlock (bits : List Bit) (m : Modulation) :
    interleave bits m = perBlock (nCbps m) (interleaveSymbol m) bits := rfl

/-- Bit `k` of symbol `t` of the input goes to position `J(mod, k)` of symbol `t` of the output (R92). -/
theorem interleave_interleaveIndex {m : Modulation} {bits : List Bit} {t k : Nat} (ht : t < bits.length / nCbps m)
    (hk : k < nCbps m) :
    (interleave bits m)[t * nCbps m + interleaveIndex m k]? = bits[t * nCbps m + k]? := by
  have hwhole : (t + 1) * nCbps m ≤ bits.length :=
    (Nat.mul_le_mul_right _ ht).trans (Nat.div_mul_le_self _ _)
  have hblock : ((bits.drop (t * nCbps m)).take (nCbps m)).length = nCbps m := by
    rw [Nat.succ_mul] at hwhole
    rw [List.length_take, List.length_drop]
    omega
  rw [interleave, flatMap_range_getElem? (fun _ => interleaveSymbol_length m _) ht (interleaveIndex_lt m k hk),
    interleaveSymbol_interleaveIndex hblock hk, List.getElem?_take_of_lt hk, List.getElem?_drop]

/-- Settles O40: the run block by block (`CollectsBlocks.run_cfg_end`), and where the bits of a symbol go. -/
theorem interleaveRunIsSequenceFunction : Obligations.InterleaveRunIsSequenceFunction := by
  intro m bits s hfill
  refine ⟨?run, perBlock_length _ bits (interleaveSymbol_length m), fun t k => interleave_interleaveIndex⟩
  obtain ⟨t, rs, hrun, ⟨hrest, hmod⟩, hok, hlen, hout, hdout⟩ :=
    (ilvBit_collects m).run_cfg_end (nCbps_pos m) bits (exec_ilvCfg_begins m hfill) fun _ _ h => h.exec_ilvEnd
  exact ⟨t, rs, hrun, hrest, hmod, hok, hlen, hout, by rw [hdout, interleave_eq_perBlock, map_perBlock]⟩

/-! ### MAP -/

/-- MAP holds the partial group `p` of modulation `m`. -/
structure HoldsGroup (m : Modulation) (p : List Bit) (s : State) : Prop where
  mod : s.map.mod = m
  fill : s.map.fill.toNat = p.length
  acc : Stored s.map.acc id p

/-- The bit after those before it (R102). -/
theorem HoldsGroup.stored_append {m : Modulation} {p : List Bit} {s : State} (h : HoldsGroup m p s)
    (hlt : p.length < nBpsc m) (b : Bit) : Stored (s.map.acc.setIfInBounds s.map.fill.toNat b) id (p ++ [b]) := by
  rw [h.fill]
  exact h.acc.append (hlt.trans_le (nBpsc_le m)) (fun k hk => hk.ne) b

/-- The first N_BPSC cells alone fix the point (10_state.md R19). -/
theorem mapPoint_congr (m : Modulation) {g g' : Vector Bit 6} (h : ∀ k, k < nBpsc m → g[k]? = g'[k]?) :
    mapPoint m g = mapPoint m g' := by
  have hcell (k : Nat) (hk : k < nBpsc m) : g[k]'(hk.trans_le (nBpsc_le m)) = g'[k]'(hk.trans_le (nBpsc_le m)) := by
    simpa [hk.trans_le (nBpsc_le m)] using h k hk
  cases m with
  | bpsk => simp [mapPoint, levelI, levelQ, hcell 0 (by decide)]
  | qpsk => simp [mapPoint, levelI, levelQ, hcell 0 (by decide), hcell 1 (by decide)]
  | qam16 =>
    simp [mapPoint, levelI, levelQ, hcell 0 (by decide), hcell 1 (by decide), hcell 2 (by decide),
      hcell 3 (by decide)]
  | qam64 =>
    simp [mapPoint, levelI, levelQ, hcell 0 (by decide), hcell 1 (by decide), hcell 2 (by decide),
      hcell 3 (by decide), hcell 4 (by decide), hcell 5 (by decide)]

theorem groupOf_getElem? (q : List Bit) {k : Nat} (hk : k < 6) : (groupOf q)[k]? = some (q.getD k false) := by
  interval_cases k <;> rfl

/-- A group with every bit in its cell has the point of the list. -/
theorem Stored.mapPoint_eq {m : Modulation} {acc : Vector Bit 6} {q : List Bit} (h : Stored acc id q)
    (hq : q.length = nBpsc m) : mapPoint m acc = mapPoint m (groupOf q) := by
  refine mapPoint_congr m fun k hk => ?_
  have hstored : acc[k]? = q[k]? := h k (hq ▸ hk)
  rw [hstored, groupOf_getElem? q (hk.trans_le (nBpsc_le m)), List.getElem?_eq_getElem (hq ▸ hk)]
  simp [hq, hk]

/-- A bit that is not its group's last is collected and counted (R102). -/
theorem exec_mapBit_of_ne (b : Bit) {s : State} (hfill : s.map.fill.toNat + 1 ≠ nBpsc s.map.mod) :
    exec (.mapBit b) s = .next ((s.setMap ⟨s.map.mod, s.map.fill + 1,
      s.map.acc.setIfInBounds s.map.fill.toNat b⟩).respond .ok []) := by
  simp [exec, execMapBit, hfill, answer]

/-- A group's last bit is collected and the group's point emitted (R102). -/
theorem exec_mapBit_of_eq (b : Bit) {s : State} (hfill : s.map.fill.toNat + 1 = nBpsc s.map.mod) :
    exec (.mapBit b) s = .next ((s.setMap ⟨s.map.mod, 0,
      s.map.acc.setIfInBounds s.map.fill.toNat b⟩).respond .ok
      [.cplx (quantCplx (mapPoint s.map.mod (s.map.acc.setIfInBounds s.map.fill.toNat b)))]) := by
  simp [exec, execMapBit, hfill, answer, cplxResult]

theorem mapBit_collects (m : Modulation) :
    CollectsBlocks .mapBit (nBpsc m) (fun q => [.cplx (quantCplx (mapPoint m (groupOf q)))]) (HoldsGroup m) where
  collect b p s h hmore := by
    have hfill : s.map.fill.toNat + 1 ≠ nBpsc s.map.mod := by rw [h.fill, h.mod]; omega
    refine ⟨_, exec_mapBit_of_ne b hfill, rfl, h.mod, ?_, h.stored_append (by omega) b⟩
    simpa using fill_succ_toNat s.map.fill h.fill hmore ((nBpsc_le m).trans (by decide))
  complete b p s h hlast := by
    have hfill : s.map.fill.toNat + 1 = nBpsc s.map.mod := by rw [h.fill, h.mod]; exact hlast
    have hemit := (h.stored_append (by omega) b).mapPoint_eq (m := m) (by simpa using hlast)
    refine ⟨_, exec_mapBit_of_eq b hfill, ?_, h.mod, rfl, stored_nil _ _⟩
    rw [← hemit, ← h.mod]
    rfl

/-- MAP.CFG with no partial group held begins a group of the modulation it selects (R101). -/
theorem exec_mapCfg_begins (m : Modulation) {s : State} (hfill : s.map.fill = 0) :
    ∃ t, exec (.mapCfg m) s = .next t ∧ t.outbox = s.outbox ++ [⟨.ok, []⟩] ∧ HoldsGroup m [] t := by
  refine ⟨(s.setMap { s.map with mod := m }).respond .ok [], ?_, rfl, rfl, ?_, stored_nil _ _⟩
  · simp [exec, execMapCfg, hfill, holdsPartial, answer]
  · simp [hfill]

/-- MAP.END leaves no partial group and reports one that was held (R103). -/
theorem HoldsGroup.exec_mapEnd {m : Modulation} {p : List Bit} {s : State} (h : HoldsGroup m p s) :
    ∃ t, exec .mapEnd s = .next t ∧ (t.map.fill = 0 ∧ t.map.mod = m) ∧
      t.outbox = s.outbox ++ [⟨if p.length = 0 then .ok else .malformedBitSequence, []⟩] := by
  simp only [exec, execMapEnd, holdsPartial_toNat_iff, ne_eq, fill_eq_zero_iff _ h.fill]
  by_cases hp : p.length = 0
  · rw [if_neg (not_not.mpr hp), if_pos hp]
    exact ⟨_, rfl, ⟨(fill_eq_zero_iff _ h.fill).mpr hp, h.mod⟩, rfl⟩
  · rw [if_pos hp, if_neg hp]
    exact ⟨_, rfl, ⟨rfl, h.mod⟩, rfl⟩

theorem modulate_eq_perBlock (bits : List Bit) (m : Modulation) :
    modulate bits m = perBlock (nBpsc m) (fun q => [mapPoint m (groupOf q)]) bits := List.map_eq_flatMap

/-- Settles O46: the run block by block (`CollectsBlocks.run_cfg_end`). -/
theorem modulateRunIsSequenceFunction : Obligations.ModulateRunIsSequenceFunction := by
  intro m bits s hfill
  refine ⟨?run, by simp [modulate]⟩
  obtain ⟨t, rs, hrun, ⟨hrest, hmod⟩, hok, hlen, hout, hdout⟩ :=
    (mapBit_collects m).run_cfg_end (nBpsc_pos m) bits (exec_mapCfg_begins m hfill) fun _ _ h => h.exec_mapEnd
  exact ⟨t, rs, hrun, hrest, hmod, hok, hlen, hout, by rw [hdout, modulate_eq_perBlock, map_perBlock]; rfl⟩

end Sys2Proof.Machine
end

section
/-! Proofs on SCR: the register's step on numbers, the bits its runs answer (40_scrambler_lfsr.md R63 to R65, R67), and
its period of 127 (R66), from the generator's polynomial and 127 being prime. -/

namespace Sys2Proof.Machine

/-! ### The operations of SCR -/

/-- The word that `encode` gives is the operation's only word. -/
theorem onlyWord_encode (i : Instr) : OnlyWord (encode i) i := fun v => (decode_eq_ok_iff v i).trans eq_comm

theorem encode_scrSeed (seed : BitVec 7) : encode (.scrSeed seed) = 0x1000 ||| seed.setWidth 16 := by
  revert seed; decide

theorem encode_scrBit (b : Bit) : encode (.scrBit b) = 0x1100 ||| (BitVec.ofBool b).setWidth 16 := by
  revert b; decide

theorem decode_scrSeed_unusedImmBit (seed : BitVec 7) :
    decode (0x1080 ||| seed.setWidth 16) = .error .unusedImmBit := by
  revert seed; decide

theorem exec_scrSeed (seed : BitVec 7) (s : State) :
    exec (.scrSeed seed) s = .next ((s.setScr ⟨seed⟩).respond .ok []) := rfl

theorem exec_scrBit (b : Bit) (s : State) :
    exec (.scrBit b) s
      = .next ((s.setScr ⟨lfsrNext s.scr.lfsr⟩).respond .ok [.bit (b ^^ lfsrFeedback s.scr.lfsr)]) := rfl

/-- SCR.GEN is SCR.BIT 0 (R64). -/
theorem exec_scrGen_eq_scrBit (s : State) : exec .scrGen s = exec (.scrBit false) s := rfl

/-- The register's step on numbers: the 7 low bits of twice the register and the feedback (R63). -/
theorem lfsrNext_toNat (r : BitVec 7) :
    (lfsrNext r).toNat = (r.toNat <<< 1 ||| (lfsrFeedback r).toNat) &&& 0x7F := by
  revert r; decide

/-- Settles O22. -/
theorem scrSeedLoadsRegister : Obligations.ScrSeedLoadsRegister := fun seed s =>
  ⟨encode_scrSeed seed ▸ onlyWord_encode _, decode_scrSeed_unusedImmBit seed, exec_scrSeed seed s⟩

/-- Settles O23. -/
theorem scrBitXorsAndSteps : Obligations.ScrBitXorsAndSteps := fun b s =>
  ⟨encode_scrBit b ▸ onlyWord_encode _, lfsrNext s.scr.lfsr, lfsrNext_toNat _, exec_scrBit b s⟩

/-- Settles O24. -/
theorem scrGenOutputsFeedback : Obligations.ScrGenOutputsFeedback := fun s =>
  ⟨onlyWord_encode .scrGen, exec_scrGen_eq_scrBit s, lfsrNext s.scr.lfsr, lfsrNext_toNat _, exec_scrGen s⟩

/-! ### Runs of SCR -/

/-- The first bit of `lfsr` and the rest, from the register one step on. -/
theorem lfsr_succ (n : Nat) (r : BitVec 7) : lfsr (n + 1) r = lfsrFeedback r :: lfsr n (lfsrNext r) :=
  lfsrFrom_succ_registerBits n r

theorem scramble_length (bits : List Bit) (seed : BitVec 7) : (scramble bits seed).length = bits.length := by
  simp [scramble, lfsr, lfsrFrom_length]

theorem scramble_cons (b : Bit) (bs : List Bit) (r : BitVec 7) :
    scramble (b :: bs) r = (b ^^ lfsrFeedback r) :: scramble bs (lfsrNext r) := by
  simp only [scramble, List.length_cons, lfsr_succ, List.zipWith_cons_cons]

/-- Both times the bits are xored with the same `lfsr`, and `a ^ x ^ x = a`. -/
theorem scramble_scramble (bits : List Bit) (seed : BitVec 7) : scramble (scramble bits seed) seed = bits := by
  induction bits generalizing seed with
  | nil => rfl
  | cons b bs ih => simp only [scramble_cons, ih, Bool.xor_assoc, Bool.xor_self, Bool.xor_false]

/-- SCR.BIT for every bit steps the register as often, and answers the bits scrambled from the register's value on. -/
theorem execAll_scrBit (bits : List Bit) (s : State) :
    ∃ t, execAll (bits.map .scrBit) s = .next t ∧ t.scr.lfsr = lfsrNext^[bits.length] s.scr.lfsr ∧
      t.outbox = s.outbox ++ (scramble bits s.scr.lfsr).map (fun b => ⟨.ok, [.bit b]⟩) := by
  induction bits generalizing s with
  | nil => exact ⟨s, rfl, rfl, by simp [scramble]⟩
  | cons b bs ih =>
    obtain ⟨t, hrun, hreg, hout⟩ := ih _
    refine ⟨t, (execAll_cons_of_next (exec_scrBit b s) _).trans hrun, hreg, ?_⟩
    simp [hout, scramble_cons]

theorem execAll_expandScramble (bits : List Bit) (seed : BitVec 7) (s : State) :
    ∃ t, execAll (expandScramble bits seed) s = .next t ∧ t.scr.lfsr = lfsrNext^[bits.length] seed ∧
      t.outbox = s.outbox ++ ⟨.ok, []⟩ :: (scramble bits seed).map (fun b => ⟨.ok, [.bit b]⟩) := by
  obtain ⟨t, hrun, hreg, hout⟩ := execAll_scrBit bits ((s.setScr ⟨seed⟩).respond .ok [])
  exact ⟨t, (execAll_cons_of_next (exec_scrSeed seed s) _).trans hrun, hreg, by simp [hout]⟩

/-- Settles O27, the run by induction on the bits (`execAll_scrBit`). -/
theorem scrambleRunIsSelfInverse : Obligations.ScrambleRunIsSelfInverse := by
  intro bits seed s
  obtain ⟨t, hrun, -, hout⟩ := execAll_expandScramble bits seed s
  exact ⟨⟨t, hrun, hout⟩, scramble_length bits seed, scramble_scramble bits seed⟩

/-! ### Seed 0 -/

theorem lfsrNext_zero : lfsrNext 0 = 0 := rfl

theorem lfsrFeedback_zero : lfsrFeedback 0 = false := rfl

theorem scramble_zero (bits : List Bit) : scramble bits 0 = bits := by
  induction bits with
  | nil => rfl
  | cons b bs ih => rw [scramble_cons, lfsrNext_zero, ih, lfsrFeedback_zero, Bool.xor_false]

theorem lfsr_zero (n : Nat) : lfsr n 0 = List.replicate n false := by
  induction n with
  | zero => rfl
  | succ n ih => rw [lfsr_succ, lfsrFeedback_zero, lfsrNext_zero, ih, List.replicate_succ]

/-- Settles O28: 0 is a fixed point of the register's step, and its feedback is 0. -/
theorem zeroSeedPassesThrough : Obligations.ZeroSeedPassesThrough := by
  intro bits s
  obtain ⟨t, hrun, hreg, hout⟩ := execAll_expandScramble bits 0 s
  exact ⟨⟨t, hrun, hreg.trans (Function.iterate_fixed lfsrNext_zero _), by rw [hout, scramble_zero]⟩, lfsr_zero _⟩

/-! ### The period -/

/-- The register's step is linear over xor. -/
theorem lfsrNext_xor (a b : BitVec 7) : lfsrNext (a ^^^ b) = lfsrNext a ^^^ lfsrNext b := by
  apply BitVec.eq_of_getLsbD_eq
  intro i hi
  simp only [BitVec.getLsbD_xor, lfsrNext_bit, lfsrFeedback, hi, decide_true, Bool.true_and]
  split
  · simp only [Bool.xor_assoc, Bool.xor_left_comm]
  · rfl

theorem lfsrNext_iterate_xor (n : Nat) (a b : BitVec 7) :
    lfsrNext^[n] (a ^^^ b) = lfsrNext^[n] a ^^^ lfsrNext^[n] b := by
  induction n generalizing a b with
  | zero => rfl
  | succ n ih => simp only [Function.iterate_succ_apply, lfsrNext_xor, ih]

theorem lfsrNext_eq_zero_iff (r : BitVec 7) : lfsrNext r = 0 ↔ r = 0 := by revert r; decide

theorem lfsrNext_injective : Function.Injective lfsrNext := by
  intro a b h
  have hzero : lfsrNext (a ^^^ b) = 0 := by rw [lfsrNext_xor, h]; exact BitVec.xor_self
  exact BitVec.xor_eq_zero_iff.mp ((lfsrNext_eq_zero_iff _).mp hzero)

/-- The register's step `x` obeys `x^a = x^b + x^c`. -/
def StepsAsSum (a b c : Nat) : Prop := ∀ r, lfsrNext^[a] r = lfsrNext^[b] r ^^^ lfsrNext^[c] r

/-- The generator's polynomial `x^7 = x^3 + 1`, times `x`. -/
theorem stepsAsSum_generator : StepsAsSum 8 4 1 := by
  unfold StepsAsSum
  decide

/-- Squaring: over xor the mixed products cancel, `(x^b + x^c)^2 = x^2b + x^2c`. -/
theorem StepsAsSum.double {a b c : Nat} (h : StepsAsSum a b c) : StepsAsSum (a + a) (b + b) (c + c) := by
  intro r
  have hmixed : lfsrNext^[b] (lfsrNext^[c] r) = lfsrNext^[c] (lfsrNext^[b] r) :=
    Function.Commute.iterate_iterate_self lfsrNext b c r
  simp only [Function.iterate_add_apply]
  rw [h r, lfsrNext_iterate_xor, h, h, hmixed, BitVec.xor_assoc, ← BitVec.xor_assoc (lfsrNext^[c] _),
    BitVec.xor_self, BitVec.zero_xor]

/-- By squaring, `x^128 = x^64 + x^16 = x^32 + x^8 + x^16 = x^4 + x^8 = x`. -/
theorem lfsrNext_iterate_128 (r : BitVec 7) : lfsrNext^[128] r = lfsrNext r := by
  have h8 : StepsAsSum 8 4 1 := stepsAsSum_generator
  have h16 : StepsAsSum 16 8 2 := h8.double
  have h32 : StepsAsSum 32 16 4 := h16.double
  have h64 : StepsAsSum 64 32 8 := h32.double
  have h128 : StepsAsSum 128 64 16 := h64.double
  rw [h128 r, h64 r, h32 r, h8 r, Function.iterate_one]
  grind

theorem lfsrNext_iterate_127 (r : BitVec 7) : lfsrNext^[127] r = r :=
  lfsrNext_injective ((Function.iterate_succ_apply' lfsrNext 127 r).symm.trans (lfsrNext_iterate_128 r))

/-- 127 is prime, and 0 is the only fixed point of the register's step. -/
theorem lfsrNext_minimalPeriod {r : BitVec 7} (hr : r ≠ 0) : Function.minimalPeriod lfsrNext r = 127 := by
  have hprime : Fact (Nat.Prime 127) := ⟨by norm_num⟩
  have hfix : ∀ r : BitVec 7, lfsrNext r = r → r = 0 := by decide
  exact Function.minimalPeriod_eq_prime (lfsrNext_iterate_127 r) fun h => hr (hfix r h)

theorem lfsrNext_iterate_ne_zero {r : BitVec 7} (hr : r ≠ 0) (n : Nat) : lfsrNext^[n] r ≠ 0 := by
  induction n with
  | zero => exact hr
  | succ n ih => rwa [Function.iterate_succ_apply', ne_eq, lfsrNext_eq_zero_iff]

theorem card_register : Fintype.card (BitVec 7) = 128 :=
  (Fintype.card_congr BitVec.equivFin.toEquiv).trans (Fintype.card_fin 128)

/-- The 127 values of a period are different and not 0, so they are all the non-zero values. -/
theorem exists_lfsrNext_iterate_eq {r q : BitVec 7} (hr : r ≠ 0) (hq : q ≠ 0) : ∃ k < 127, lfsrNext^[k] r = q := by
  have hmaps : Set.MapsTo (fun k => lfsrNext^[k] r) (Finset.range 127) (Finset.univ.erase (0 : BitVec 7)) := by
    intro k _
    simpa using lfsrNext_iterate_ne_zero hr k
  have hinj : Set.InjOn (fun k => lfsrNext^[k] r) (Finset.range 127) := by
    have hperiod := Function.iterate_injOn_Iio_minimalPeriod (f := lfsrNext) (x := r)
    rwa [lfsrNext_minimalPeriod hr, ← Finset.coe_Iio] at hperiod
  have hcard : (Finset.univ.erase (0 : BitVec 7)).card ≤ (Finset.range 127).card := by
    simp [card_register]
  obtain ⟨k, hk, rfl⟩ := Finset.surjOn_of_injOn_of_card_le _ hmaps hinj hcard (by simpa using hq)
  exact ⟨k, by simpa using hk, rfl⟩

/-- Every SCR.GEN steps the register (R64). -/
theorem execAll_scrGen_lfsr (n : Nat) (s : State) :
    ∃ t, execAll (List.replicate n .scrGen) s = .next t ∧ t.scr.lfsr = lfsrNext^[n] s.scr.lfsr := by
  induction n generalizing s with
  | zero => exact ⟨s, rfl, rfl⟩
  | succ n ih =>
    obtain ⟨t, hrun, hreg⟩ := ih _
    exact ⟨t, (execAll_cons_of_next (exec_scrGen s) _).trans hrun, hreg⟩

/-- Output `i` is the feedback of the register `i` steps on. -/
theorem lfsr_getD {n i : Nat} (hi : i < n) (seed : BitVec 7) :
    (lfsr n seed).getD i false = lfsrFeedback (lfsrNext^[i] seed) := by
  induction n generalizing i seed with
  | zero => omega
  | succ n ih =>
    rw [lfsr_succ]
    cases i with
    | zero => rfl
    | succ i => exact ih (by omega) (lfsrNext seed)

/-- Settles O26: SCR.GEN iterates `lfsrNext`, whose minimal period on a non-zero register is 127. -/
theorem scramblerPeriod127 : Obligations.ScramblerPeriod127 := by
  refine ⟨fun s hs => ⟨?returns, ?notBefore, ?allMet⟩, ?repeats⟩
  case returns =>
    obtain ⟨t, hrun, hreg⟩ := execAll_scrGen_lfsr 127 s
    exact ⟨t, hrun, congrArg Scr.mk (hreg.trans (lfsrNext_iterate_127 _))⟩
  case notBefore =>
    intro k hpos hlt
    obtain ⟨t, hrun, hreg⟩ := execAll_scrGen_lfsr k s
    refine ⟨t, hrun, fun heq => ?_⟩
    rw [heq] at hreg
    exact Function.not_isPeriodicPt_of_pos_of_lt_minimalPeriod hpos.ne' (by rwa [lfsrNext_minimalPeriod hs]) hreg.symm
  case allMet =>
    intro r hr
    obtain ⟨k, hk, rfl⟩ := exists_lfsrNext_iterate_eq hs hr
    obtain ⟨t, hrun, hreg⟩ := execAll_scrGen_lfsr k s
    exact ⟨k, t, hk, hrun, hreg⟩
  case repeats =>
    intro seed _ i hi
    rw [lfsr_getD (by omega), lfsr_getD (by omega), Function.iterate_add_apply, lfsrNext_iterate_127]

end Sys2Proof.Machine
end

section
/-! Proofs on ENC: its two operations (41_conv_encoder.md R72, R73), and the linearity of its runs (R75), from the
linearity of the two parities and of the history's move. -/

namespace Sys2Proof.Machine

/-! ### The operations of ENC -/

theorem encode_encBit (b : Bit) : encode (.encBit b) = 0x2100 ||| (BitVec.ofBool b).setWidth 16 := by
  revert b; decide

theorem exec_encClr (s : State) : exec .encClr s = .next ((s.setEnc ⟨0⟩).respond .ok []) := rfl

theorem exec_encBit (b : Bit) (s : State) :
    exec (.encBit b) s = .next ((s.setEnc ⟨encoderNext b s.enc.hist⟩).respond .ok
      [.bit (encoderA b s.enc.hist), .bit (encoderB b s.enc.hist)]) := rfl

/-- The history's move on numbers: the 6 low bits of twice the history and the input bit (R73). -/
theorem encoderNext_toNat (b : Bit) (h : BitVec 6) :
    (encoderNext b h).toNat = (h.toNat <<< 1 ||| b.toNat) &&& 0x3F := by
  revert b h; decide

/-- Settles O29. -/
theorem encClrClearsHistory : Obligations.EncClrClearsHistory := fun s =>
  ⟨onlyWord_encode .encClr, exec_encClr s⟩

/-- Settles O30. -/
theorem encBitEncodesOneBit : Obligations.EncBitEncodesOneBit := fun b s =>
  ⟨encode_encBit b ▸ onlyWord_encode _, encoderNext b s.enc.hist, encoderNext_toNat b _, exec_encBit b s⟩

/-! ### Linearity over xor -/

theorem encoderA_xor (x y : Bit) (g h : BitVec 6) :
    encoderA (x ^^ y) (g ^^^ h) = (encoderA x g ^^ encoderA y h) := by
  simp only [encoderA, BitVec.getLsbD_xor, Bool.xor_assoc, Bool.xor_left_comm]

theorem encoderB_xor (x y : Bit) (g h : BitVec 6) :
    encoderB (x ^^ y) (g ^^^ h) = (encoderB x g ^^ encoderB y h) := by
  simp only [encoderB, BitVec.getLsbD_xor, Bool.xor_assoc, Bool.xor_left_comm]

theorem encoderNext_xor (x y : Bit) (g h : BitVec 6) :
    encoderNext (x ^^ y) (g ^^^ h) = encoderNext x g ^^^ encoderNext y h := by
  apply BitVec.eq_of_getLsbD_eq
  intro i hi
  simp only [BitVec.getLsbD_xor, encoderNext_bit, hi, decide_true, Bool.true_and]
  split <;> rfl

/-- The history and the input enter the code only through xors. -/
theorem convEncodeFrom_xor (a b : List Bit) (g h : BitVec 6) :
    convEncodeFrom (registerBits (g ^^^ h)) (List.zipWith (fun x y => x ^^ y) a b)
      = List.zipWith (fun x y => x ^^ y) (convEncodeFrom (registerBits g) a) (convEncodeFrom (registerBits h) b) := by
  induction a generalizing b g h with
  | nil => rfl
  | cons x a ih =>
    cases b with
    | nil => simp [convEncodeFrom]
    | cons y b =>
      simp only [List.zipWith_cons_cons, convEncodeFrom_cons_registerBits, encoderA_xor, encoderB_xor,
        encoderNext_xor, ih]

/-- Both runs start from history 0, and so does the run on their sum. -/
theorem convEncode_xor (a b : List Bit) :
    convEncode (List.zipWith (fun x y => x ^^ y) a b)
      = List.zipWith (fun x y => x ^^ y) (convEncode a) (convEncode b) :=
  convEncodeFrom_xor a b 0 0

theorem convEncode_length (bits : List Bit) : (convEncode bits).length = 2 * bits.length :=
  convEncodeFrom_length _ bits

/-- Zeros keep the history at 0, whose parities are 0. -/
theorem convEncode_zeros (n : Nat) : convEncode (List.replicate n false) = List.replicate (2 * n) false := by
  induction n with
  | zero => rfl
  | succ n ih => exact congrArg (fun code => false :: false :: code) ih

/-- A 1 meets each tap of the two generators in turn and has left the history after six zeros. -/
theorem convEncode_impulse_append (bits : List Bit) :
    convEncode (true :: List.replicate 6 false ++ bits)
      = [true, true, false, true, true, true, true, true, false, false, true, false, true, true]
        ++ convEncode bits := rfl

theorem convEncode_impulse (n : Nat) :
    convEncode (true :: List.replicate (6 + n) false)
      = [true, true, false, true, true, true, true, true, false, false, true, false, true, true]
        ++ List.replicate (2 * n) false := by
  rw [List.replicate_add, ← List.cons_append, convEncode_impulse_append, convEncode_zeros]

/-! ### The runs -/

theorem answers_expandEncode (bits : List Bit) (s : State) :
    Answers (expandEncode bits) s ((convEncode bits).map .bit) := by
  obtain ⟨⟨t, pairs, hrun, hout, hcode⟩, -⟩ := encodeRunIsSequenceFunction bits s
  refine ⟨t, _, hrun, hout, List.forall_mem_cons.mpr ⟨rfl, List.forall_mem_map.mpr fun _ _ => rfl⟩, ?_⟩
  simp [← hcode, List.map_flatMap, List.flatMap_map]

/-- Settles O32: a run answers the code of its bits (`answers_expandEncode`), which is linear (`convEncode_xor`). -/
theorem encoderIsLinear : Obligations.EncoderIsLinear := by
  refine ⟨fun a b s _ => ?linear, fun n s => ?zeros, fun n s => ?impulse⟩
  case linear =>
    refine ⟨convEncode a, convEncode b, convEncode_length a, convEncode_length b, answers_expandEncode a s,
      answers_expandEncode b s, ?_⟩
    rw [← convEncode_xor]
    exact answers_expandEncode _ s
  case zeros => exact convEncode_zeros n ▸ answers_expandEncode _ s
  case impulse => exact convEncode_impulse n ▸ answers_expandEncode _ s

end Sys2Proof.Machine
end

section
/-! Proofs on PUN: its two operations (42_puncturer.md R80, R81), and its runs, which take one position of the
repeated pattern for each bit (R79, R82, R84). -/

namespace Sys2Proof.Machine

/-! ### The operations of PUN -/

theorem encode_punStart (rate : Option CodingRate) :
    encode (.punStart rate) = 0x3000 ||| (CodingRate.toCode rate).setWidth 16 := by
  cases rate with
  | none => rfl
  | some r => cases r <;> rfl

theorem encode_punBit (b : Bit) : encode (.punBit b) = 0x3100 ||| (BitVec.ofBool b).setWidth 16 := by
  revert b; decide

theorem exec_punStart_some (r : CodingRate) (s : State) :
    exec (.punStart (some r)) s = .next ((s.setPun ⟨r, 0⟩).respond .ok []) := rfl

theorem exec_punStart_none (s : State) :
    exec (.punStart none) s = .next (s.raise .unsupportedRate) := rfl

theorem exec_punBit (b : Bit) (s : State) :
    exec (.punBit b) s = .next ((s.setPun ⟨s.pun.rate, punctureNext s.pun.rate s.pun.phase⟩).respond .ok
      ((if punctureKeeps s.pun.rate s.pun.phase then [b] else []).map .bit)) := rfl

/-- Settles O33. -/
theorem punStartSelectsPattern : Obligations.PunStartSelectsPattern := fun s =>
  ⟨fun r => ⟨encode_punStart (some r) ▸ onlyWord_encode _, exec_punStart_some r s⟩,
    onlyWord_encode (.punStart none), exec_punStart_none s⟩

/-- Within the pattern, the phases not kept are the dropped ones (R79). -/
theorem punctureKeeps_iff {r : CodingRate} {p : BitVec 3} (hp : p.toNat < phaseBound r) :
    punctureKeeps r p = true ↔ p.toNat ∉ droppedPhases r := by
  cases r with
  | half | twoThirds | threeQuarters => revert p; decide

/-- What PUN.BIT answers, by the dropped phases (R81). -/
theorem kept_map_bit (b : Bit) {u : Pun} (hu : u.Legal) :
    (if punctureKeeps u.rate u.phase then [b] else []).map Datum.bit
      = if u.phase.toNat ∈ droppedPhases u.rate then [] else [.bit b] := by
  by_cases hdrop : u.phase.toNat ∈ droppedPhases u.rate
  · rw [if_pos hdrop, if_neg fun hkeep => (punctureKeeps_iff hu).mp hkeep hdrop, List.map_nil]
  · rw [if_neg hdrop, if_pos ((punctureKeeps_iff hu).mpr hdrop), List.map_singleton]

/-- Settles O34. -/
theorem punBitKeepsOrDrops : Obligations.PunBitKeepsOrDrops := by
  intro b s hlegal
  obtain ⟨hpun, -, -⟩ := (State.legal_iff s).mp hlegal
  refine ⟨encode_punBit b ▸ onlyWord_encode _, punctureNext s.pun.rate s.pun.phase, punctureNext_toNat _ _, ?_⟩
  rw [exec_punBit, kept_map_bit b hpun]
  rfl

/-! ### The repeated pattern -/

/-- Whether the pattern, repeated without end, keeps the bit at position `k` (R79). -/
def keepsAt (r : CodingRate) (k : Nat) : Bit := (puncturePattern r).getD (k % (puncturePattern r).length) false

/-- The phase is the position's place in the pattern. -/
theorem punctureKeeps_eq_keepsAt {r : CodingRate} {p : BitVec 3} {k : Nat} (hp : p.toNat = k % phaseBound r) :
    punctureKeeps r p = keepsAt r k := by
  rw [punctureKeeps, hp, phaseBound_eq, keepsAt]

theorem punctureNext_toNat_of_position {r : CodingRate} {p : BitVec 3} {k : Nat} (hp : p.toNat = k % phaseBound r) :
    (punctureNext r p).toNat = (k + 1) % phaseBound r := by
  rw [punctureNext_toNat, hp, Nat.mod_add_mod]

/-- `puncture` of bits whose first stands at position `k`. -/
def punctureFrom (r : CodingRate) (k : Nat) (e : List Bit) : List Bit :=
  ((e.zipIdx k).filter fun t => keepsAt r t.2).map (·.1)

theorem puncture_eq_punctureFrom (e : List Bit) (r : CodingRate) : puncture e r = punctureFrom r 0 e := rfl

theorem punctureFrom_cons (r : CodingRate) (k : Nat) (b : Bit) (e : List Bit) :
    punctureFrom r k (b :: e) = (if keepsAt r k then [b] else []) ++ punctureFrom r (k + 1) e := by
  cases hkeep : keepsAt r k <;> simp [punctureFrom, List.zipIdx_cons, hkeep]

/-! ### How many bits are kept -/

theorem keepsAt_period_add (r : CodingRate) (q i : Nat) : keepsAt r (phaseBound r * q + i) = keepsAt r i := by
  simp only [keepsAt, phaseBound_eq, Nat.mul_add_mod]

/-- R82's length over whole patterns and what follows them. -/
theorem puncturedLength_period_add (r : CodingRate) (q i : Nat) :
    puncturedLength r (phaseBound r * q + i) = q * puncturedLength r (phaseBound r) + puncturedLength r i := by
  cases r with
  | half => simp [puncturedLength, phaseBound]
  | twoThirds | threeQuarters =>
    simp [puncturedLength, phaseBound, Nat.mul_add_div]
    omega

/-- R82's length counts one more exactly where the repeated pattern keeps the bit: a check of one pattern, as both
sides repeat. -/
theorem puncturedLength_succ (r : CodingRate) (n : Nat) :
    puncturedLength r (n + 1) = puncturedLength r n + (keepsAt r n).toNat := by
  have hpattern : ∀ i < phaseBound r, puncturedLength r (i + 1) = puncturedLength r i + (keepsAt r i).toNat := by
    cases r with
    | half | twoThirds | threeQuarters => decide
  have hi : n % phaseBound r < phaseBound r := Nat.mod_lt n (phaseBound_pos r)
  rw [← Nat.div_add_mod n (phaseBound r), Nat.add_assoc, puncturedLength_period_add, hpattern _ hi,
    puncturedLength_period_add, keepsAt_period_add, Nat.add_assoc]

theorem puncturedLength_add (r : CodingRate) (k : Nat) (e : List Bit) :
    puncturedLength r (k + e.length) = puncturedLength r k + (punctureFrom r k e).length := by
  induction e generalizing k with
  | nil => rfl
  | cons b e ih =>
    have hlen : (punctureFrom r k (b :: e)).length = (keepsAt r k).toNat + (punctureFrom r (k + 1) e).length := by
      rw [punctureFrom_cons, List.length_append]
      cases keepsAt r k <;> rfl
    rw [List.length_cons, Nat.add_comm e.length, ← Nat.add_assoc, ih, puncturedLength_succ, hlen, Nat.add_assoc]

theorem puncture_length (e : List Bit) (r : CodingRate) : (puncture e r).length = puncturedLength r e.length := by
  have hzero : puncturedLength r 0 = 0 := by cases r <;> rfl
  have hadd := puncturedLength_add r 0 e
  rw [hzero, Nat.zero_add, Nat.zero_add] at hadd
  exact hadd.symm

/-! ### Runs of PUN -/

/-- PUN.BIT for every bit, from the phase of position `k`, answers the bits punctured from that position on. -/
theorem execAll_punBit (e : List Bit) {s : State} {k : Nat} (hk : s.pun.phase.toNat = k % phaseBound s.pun.rate) :
    ∃ (t : State) (rs : List Response), execAll (e.map .punBit) s = .next t ∧
      t.pun.rate = s.pun.rate ∧ t.pun.phase.toNat = (k + e.length) % phaseBound s.pun.rate ∧
      t.outbox = s.outbox ++ rs ∧ rs.length = e.length ∧ (∀ r ∈ rs, r.status = .ok) ∧
      rs.flatMap (fun r => r.dout) = (punctureFrom s.pun.rate k e).map .bit := by
  induction e generalizing s k with
  | nil => exact ⟨s, [], rfl, rfl, hk, by simp, rfl, nofun, rfl⟩
  | cons b e ih =>
    obtain ⟨t, rs, hrun, hrate, hphase, hout, hlen, hok, hdout⟩ :=
      ih (s := (s.setPun ⟨s.pun.rate, punctureNext s.pun.rate s.pun.phase⟩).respond .ok _)
        (punctureNext_toNat_of_position hk)
    refine ⟨t, _ :: rs, (execAll_cons_of_next (exec_punBit b s) _).trans hrun, hrate, ?phase,
      hout.trans (List.append_assoc _ _ _), congrArg (· + 1) hlen, List.forall_mem_cons.mpr ⟨rfl, hok⟩, ?dout⟩
    case phase =>
      rw [hphase, List.length_cons, Nat.add_comm e.length, Nat.add_assoc]
      rfl
    case dout =>
      rw [List.flatMap_cons, hdout, punctureFrom_cons, List.map_append, punctureKeeps_eq_keepsAt hk]
      rfl

/-- Settles O35: PUN.START goes to position 0, from which the run punctures (`execAll_punBit`). -/
theorem punctureRunIsTiling : Obligations.PunctureRunIsTiling := by
  intro e rate s
  refine ⟨?run, puncture_length e rate⟩
  obtain ⟨t, rs, hrun, hrate, hphase, hout, hlen, hok, hdout⟩ :=
    execAll_punBit e (s := (s.setPun ⟨rate, 0⟩).respond .ok []) (k := 0) (Nat.zero_mod _).symm
  refine ⟨t, rs, (execAll_cons_of_next (exec_punStart_some rate s) _).trans hrun, hrate, ?_, ?_, hlen, hok, hdout⟩
  · simpa using hphase
  · simpa using hout

end Sys2Proof.Machine
end

section
/-! Proofs on the operations of ILV (43_bit_interleaver.md R89, R90, R91), and the index map as a permutation of a
symbol's positions (R87, R88, R93). -/

namespace Sys2Proof.Machine

/-! ### The operations of ILV -/

theorem encode_ilvCfg (m : Modulation) : encode (.ilvCfg m) = 0x4000 ||| m.toCode.setWidth 16 := by
  cases m <;> rfl

theorem encode_ilvBit (b : Bit) : encode (.ilvBit b) = 0x4100 ||| (BitVec.ofBool b).setWidth 16 := by
  cases b <;> rfl

section
variable {s : State}

theorem exec_ilvCfg_of_fill_eq_zero (m : Modulation) (hfill : s.ilv.fill = 0) :
    exec (.ilvCfg m) s = .next ((s.setIlv { s.ilv with mod := m }).respond .ok []) :=
  if_neg (mt (holdsPartial_toNat_iff _ _).mp (not_not.mpr hfill))

theorem exec_ilvCfg_of_fill_ne_zero (m : Modulation) (hfill : s.ilv.fill ≠ 0) :
    exec (.ilvCfg m) s = .next (s.raise .malformedBitSequence) :=
  if_pos ((holdsPartial_toNat_iff _ _).mpr hfill)

theorem exec_ilvEnd_of_fill_eq_zero (hfill : s.ilv.fill = 0) : exec .ilvEnd s = .next (s.respond .ok []) :=
  if_neg (mt (holdsPartial_toNat_iff _ _).mp (not_not.mpr hfill))

theorem exec_ilvEnd_of_fill_ne_zero (hfill : s.ilv.fill ≠ 0) :
    exec .ilvEnd s = .next ((s.setIlv { s.ilv with fill := 0 }).raise .malformedBitSequence) :=
  if_pos ((holdsPartial_toNat_iff _ _).mpr hfill)

end

/-- Settles O36. -/
theorem ilvCfgSelectsModulation : Obligations.IlvCfgSelectsModulation := fun m _ =>
  ⟨encode_ilvCfg m ▸ onlyWord_encode _, exec_ilvCfg_of_fill_eq_zero m, exec_ilvCfg_of_fill_ne_zero m⟩

/-- Settles O37: the bit's place is one cell of the buffer, and a bit that is not its symbol's last is counted without
overflow of `ilv.fill`. -/
theorem ilvBitPlacesAndEmits : Obligations.IlvBitPlacesAndEmits := by
  intro b s hlegal
  obtain ⟨-, hilv, -⟩ := (State.legal_iff s).mp hlegal
  refine ⟨encode_ilvBit b ▸ onlyWord_encode _,
    s.ilv.buf.setIfInBounds (interleaveIndex s.ilv.mod s.ilv.fill.toNat) b, ?places, exec_ilvBit_of_eq b, ?counts⟩
  case places =>
    intro j hj
    rw [Vector.getElem_setIfInBounds]
    exact if_congr eq_comm rfl rfl
  case counts =>
    intro hmore
    have hlt : s.ilv.fill.toNat + 1 < nCbps s.ilv.mod := Nat.lt_of_le_of_ne hilv hmore
    exact ⟨s.ilv.fill + 1, fill_succ_toNat _ rfl hlt ((nCbps_le _).trans (by decide)), exec_ilvBit_of_ne b hmore⟩

/-- Settles O38. -/
theorem ilvEndChecksAndClears : Obligations.IlvEndChecksAndClears := fun _ =>
  ⟨onlyWord_encode .ilvEnd, exec_ilvEnd_of_fill_eq_zero, exec_ilvEnd_of_fill_ne_zero⟩

/-! ### The index map as a permutation -/

/-- The input position of an output position is its only one (R88). -/
theorem existsUnique_interleaveIndex_eq {m : Modulation} {j : Nat} (hj : j < nCbps m) :
    ∃! k, k < nCbps m ∧ interleaveIndex m k = j := by
  obtain ⟨k, hk, rfl⟩ := exists_interleaveIndex_eq hj
  refine ⟨k, ⟨hk, rfl⟩, fun l ⟨hl, hlk⟩ => ?_⟩
  by_contra hne
  exact interleaveIndex_ne hl hk hne hlk

theorem deinterleaveSymbol_length (m : Modulation) (out : List Bit) :
    (deinterleaveSymbol m out).length = nCbps m := by
  simp [deinterleaveSymbol]

/-- Bit `k` is read back from position `J(mod, k)`, where the interleaver put it (R93). -/
theorem deinterleaveSymbol_interleaveSymbol {m : Modulation} {bits : List Bit} (hbits : bits.length = nCbps m) :
    deinterleaveSymbol m (interleaveSymbol m bits) = bits := by
  refine List.ext_getElem ((deinterleaveSymbol_length m _).trans hbits.symm) fun k hk hk' => ?_
  simp [deinterleaveSymbol, interleaveSymbol_interleaveIndex hbits (hbits ▸ hk'), hk']

/-- Settles O39: the model's index map is the document's two formulas as they stand (R87), within the symbol. -/
theorem interleaverIsBijection : Obligations.InterleaverIsBijection := fun m =>
  ⟨fun k hk => ⟨interleaveFirst m k, interleaveShift m, rfl, rfl, rfl, interleaveIndex_lt m k hk⟩,
    fun _ => existsUnique_interleaveIndex_eq, fun _ => deinterleaveSymbol_interleaveSymbol⟩

end Sys2Proof.Machine
end

section
/-! Proofs on the operations of MAP (44_qam_mapper_gray.md R101, R102, R103), and the numbers its points stand for: a
level pair over the square root of its mean power (R97 to R100, R105). -/

namespace Sys2Proof.Machine

/-! ### The operations of MAP -/

theorem encode_mapCfg (m : Modulation) : encode (.mapCfg m) = 0x5000 ||| m.toCode.setWidth 16 := by
  cases m <;> rfl

theorem encode_mapBit (b : Bit) : encode (.mapBit b) = 0x5100 ||| (BitVec.ofBool b).setWidth 16 := by
  cases b <;> rfl

section
variable {s : State}

theorem exec_mapCfg_of_fill_eq_zero (m : Modulation) (hfill : s.map.fill = 0) :
    exec (.mapCfg m) s = .next ((s.setMap { s.map with mod := m }).respond .ok []) :=
  if_neg (mt (holdsPartial_toNat_iff _ _).mp (not_not.mpr hfill))

theorem exec_mapCfg_of_fill_ne_zero (m : Modulation) (hfill : s.map.fill ≠ 0) :
    exec (.mapCfg m) s = .next (s.raise .malformedBitSequence) :=
  if_pos ((holdsPartial_toNat_iff _ _).mpr hfill)

theorem exec_mapEnd_of_fill_eq_zero (hfill : s.map.fill = 0) : exec .mapEnd s = .next (s.respond .ok []) :=
  if_neg (mt (holdsPartial_toNat_iff _ _).mp (not_not.mpr hfill))

theorem exec_mapEnd_of_fill_ne_zero (hfill : s.map.fill ≠ 0) :
    exec .mapEnd s = .next ((s.setMap { s.map with fill := 0 }).raise .malformedBitSequence) :=
  if_pos ((holdsPartial_toNat_iff _ _).mpr hfill)

end

/-- Settles O41. -/
theorem mapCfgSelectsConstellation : Obligations.MapCfgSelectsConstellation := fun m _ =>
  ⟨encode_mapCfg m ▸ onlyWord_encode _, exec_mapCfg_of_fill_eq_zero m, exec_mapCfg_of_fill_ne_zero m⟩

/-- Settles O42: the bit joins one cell of the group, and a bit that is not its group's last is counted without overflow
of `map.fill`. -/
theorem mapBitCollectsAndEmits : Obligations.MapBitCollectsAndEmits := by
  intro b s hlegal
  obtain ⟨-, -, hmap⟩ := (State.legal_iff s).mp hlegal
  refine ⟨encode_mapBit b ▸ onlyWord_encode _, s.map.acc.setIfInBounds s.map.fill.toNat b, ?joins,
    exec_mapBit_of_eq b, ?counts⟩
  case joins =>
    intro j hj
    rw [Vector.getElem_setIfInBounds]
    exact if_congr eq_comm rfl rfl
  case counts =>
    intro hmore
    have hlt : s.map.fill.toNat + 1 < nBpsc s.map.mod := Nat.lt_of_le_of_ne hmap hmore
    exact ⟨s.map.fill + 1, fill_succ_toNat _ rfl hlt ((nBpsc_le _).trans (by decide)), exec_mapBit_of_ne b hmore⟩

/-- Settles O43. -/
theorem mapEndChecksAndClears : Obligations.MapEndChecksAndClears := fun _ =>
  ⟨onlyWord_encode .mapEnd, exec_mapEnd_of_fill_eq_zero, exec_mapEnd_of_fill_ne_zero⟩

/-! ### The points -/

/-- The mean of `I^2 + Q^2` over the level pairs of a modulation, which is `1 / K_MOD^2` (R105). -/
def levelPower : Modulation → Nat
  | .bpsk => 1
  | .qpsk => 2
  | .qam16 => 10
  | .qam64 => 42

/-- The cosine of index 8 is that of `pi / 4`. -/
theorem toReal_addAt_eight (r : Rat) : (Trig.zero.addAt 8 r).toReal = r / √2 := by
  have hangle : 2 * Real.pi * ((8 : ℕ) : ℝ) / 64 = Real.pi / 4 := by push_cast; ring
  rw [Trig.toReal_addAt 8 (by decide), Trig.toReal_zero, zero_add, hangle, Real.cos_pi_div_four, Real.sqrt_div_self']
  ring

/-- K_MOD as `kmodLevel` holds it, `1 / √(2a)` being `√a` times a rational multiple of `1 / √2`. -/
theorem sqrt_mul_div_sqrt_two {a : ℝ} (ha : 0 ≤ a) (l : ℝ) : √a * (l / a / √2) = l / √(a * 2) := by
  calc √a * (l / a / √2) = √a / a * (l / √2) := by ring
    _ = l / (√a * √2) := by rw [Real.sqrt_div_self', div_mul_div_comm, one_mul]
    _ = l / √(a * 2) := by rw [Real.sqrt_mul ha]

/-- `kmodLevel` divides by the square root of the mean power, which has 10 as `5 * 2` and 42 as `21 * 2`. -/
theorem kmodLevel_toReal (ρ : Reading) (m : Modulation) (l : Int) :
    (kmodLevel m l).toReal ρ = l / √(levelPower m) := by
  cases m with
  | bpsk => simp [kmodLevel, levelPower]
  | qpsk => simp [kmodLevel, levelPower, ExactReal.toReal, toReal_addAt_eight, givenSum]
  | qam16 =>
    have hpower : (levelPower .qam16 : ℝ) = 5 * 2 := by norm_num [levelPower]
    rw [hpower, ← sqrt_mul_div_sqrt_two (by norm_num)]
    simp [kmodLevel, ExactReal.toReal, toReal_addAt_eight, givenSum]
  | qam64 =>
    have hpower : (levelPower .qam64 : ℝ) = 21 * 2 := by norm_num [levelPower]
    rw [hpower, ← sqrt_mul_div_sqrt_two (by norm_num)]
    simp [kmodLevel, ExactReal.toReal, toReal_addAt_eight, givenSum]

theorem mapPoint_toComplex_eq_mk (ρ : Reading) (m : Modulation) (g : Vector Bit 6) :
    (mapPoint m g).toComplex ρ = ⟨levelI m g / √(levelPower m), levelQ m g / √(levelPower m)⟩ := by
  simp only [Cplx.toComplex, mapPoint, kmodLevel_toReal]

/-- The complex value of a point: its levels over the square root of their mean power. -/
theorem mapPoint_toComplex (ρ : Reading) (m : Modulation) (g : Vector Bit 6) :
    (mapPoint m g).toComplex ρ = ((levelI m g : ℂ) + Complex.I * (levelQ m g : ℂ)) / (√(levelPower m) : ℝ) := by
  rw [mapPoint_toComplex_eq_mk]
  apply Complex.ext
  · simp [Complex.div_ofReal_re]
  · simp [Complex.div_ofReal_im]

/-- Settles O44: the level tables row by row, and the points by `mapPoint_toComplex`. -/
theorem mapPointValues : Obligations.MapPointValues := by
  refine ⟨by decide, fun ρ g => ⟨?bpsk, ?qpsk, ?qam16, ?qam64⟩⟩
  case bpsk => simpa [levelI, levelQ, levelPower] using mapPoint_toComplex ρ .bpsk g
  case qpsk => exact mapPoint_toComplex ρ .qpsk g
  case qam16 => exact mapPoint_toComplex ρ .qam16 g
  case qam64 => exact mapPoint_toComplex ρ .qam64 g

theorem mapPoint_normSq (ρ : Reading) (m : Modulation) (g : Vector Bit 6) :
    Complex.normSq ((mapPoint m g).toComplex ρ) = ((levelI m g ^ 2 + levelQ m g ^ 2 : Int) : ℝ) / levelPower m := by
  have hroot : √(levelPower m : ℝ) * √(levelPower m) = levelPower m := Real.mul_self_sqrt (Nat.cast_nonneg _)
  rw [mapPoint_toComplex_eq_mk, Complex.normSq_mk, div_mul_div_comm, div_mul_div_comm, hroot]
  push_cast
  ring

/-- The 64 groups of six bits have `levelPower` as their mean squared level, I and Q together (R105). -/
theorem sum_level_sq (m : Modulation) :
    ∑ n ∈ Finset.range 64, (levelI m (groupOfNat n) ^ 2 + levelQ m (groupOfNat n) ^ 2) = 64 * (levelPower m : Int) := by
  cases m <;> decide

/-- Settles O45: K_MOD squared takes the mean squared level (`sum_level_sq`) to 1. -/
theorem meanPowerIsOne : Obligations.MeanPowerIsOne := by
  intro ρ m
  have hpos : (levelPower m : ℝ) ≠ 0 := by cases m <;> norm_num [levelPower]
  simp only [mapPoint_normSq]
  rw [← Finset.sum_div, ← Int.cast_sum, sum_level_sq]
  push_cast
  field_simp

end Sys2Proof.Machine
end

section
/-! Proofs on PLT (45_pilot_inserter.md): its three operations (R111, R112, R113), the slots of the data and of the
pilots (R109), and the polarities of a run of PLT.INS, which are those of the document's sequence (R110, R114). -/

namespace Sys2Proof.Machine

/-! ### The operations of PLT -/

theorem encode_pltInsp (pol : Polarity) :
    encode (.pltInsp pol) = 0x6200 ||| (BitVec.ofBool pol.toBit).setWidth 16 := by
  cases pol <;> rfl

theorem exec_pltStart (s : State) : exec .pltStart s = .next ((s.setPlt ⟨127⟩).respond .ok []) := rfl

section
variable {s : State} (hdin : s.din.length = 48)
include hdin

theorem exec_pltIns : exec .pltIns s = .next ((s.setPlt ⟨lfsrNext s.plt.lfsr⟩).respond .ok
    (cplxResult (insertPilots s.din (polarityOf (lfsrFeedback s.plt.lfsr))))) := by
  simp only [exec, execPltIns, (operand_eq_some 48 s s.din).mpr ⟨hdin, rfl⟩, answer]

theorem exec_pltInsp (pol : Polarity) :
    exec (.pltInsp pol) s = .next (s.respond .ok (cplxResult (insertPilots s.din pol))) := by
  simp only [exec, execPltInsp, (operand_eq_some 48 s s.din).mpr ⟨hdin, rfl⟩, answer]

end

theorem polarityOf_eq_plus_iff (fb : Bit) : polarityOf fb = .plus ↔ fb = false := by cases fb <;> decide

/-- Settles O47. -/
theorem pltStartLoadsOnes : Obligations.PltStartLoadsOnes := fun s =>
  ⟨onlyWord_encode .pltStart, exec_pltStart s⟩

/-- Settles O48. -/
theorem pltInsInsertsAndSteps : Obligations.PltInsInsertsAndSteps := fun s hdin =>
  ⟨onlyWord_encode .pltIns, lfsrNext s.plt.lfsr, polarityOf (lfsrFeedback s.plt.lfsr), lfsrNext_toNat _,
    polarityOf_eq_plus_iff _, exec_pltIns hdin⟩

/-- Settles O49. -/
theorem pltInspInsertsOnly : Obligations.PltInspInsertsOnly := fun pol _ hdin =>
  ⟨encode_pltInsp pol ▸ onlyWord_encode _, exec_pltInsp hdin pol⟩

/-! ### Where the data and the pilots land -/

/-- Any complex numbers can be presented, however many (R115). -/
theorem anyOperand (n : Nat) : AnyOperand n := by
  intro f hf
  obtain ⟨ρ, d, hd⟩ := exists_reading f
  exact ⟨ρ, d, by rw [← hf, ← hd, List.length_map], hd⟩

theorem insertFrom_succ_of_pilot {sign base : Int} {n m : Nat} {d : List Cplx} (hm : pilotBase m = some base) :
    insertFrom sign (n + 1) m d = Cplx.ofRat (base * sign : Int) :: insertFrom sign n (m + 1) d := by
  simp only [insertFrom, hm]

theorem insertFrom_succ_of_data {sign : Int} {n m : Nat} {d : List Cplx} (hm : pilotBase m = none) :
    insertFrom sign (n + 1) m d = d.headD Cplx.zero :: insertFrom sign n (m + 1) d.tail := by
  simp only [insertFrom, hm]

theorem insertFrom_getElem?_of_pilot {sign base : Int} {n m i : Nat} (d : List Cplx) (hi : i < n)
    (hslot : pilotBase (m + i) = some base) :
    (insertFrom sign n m d)[i]? = some (Cplx.ofRat (base * sign : Int)) := by
  induction n generalizing m d i with
  | zero => omega
  | succ n ih =>
    cases i with
    | zero => rw [insertFrom_succ_of_pilot (m := m) hslot, List.getElem?_cons_zero]
    | succ i =>
      have hrest (d : List Cplx) := ih (m := m + 1) d (Nat.lt_of_succ_lt_succ hi)
        (by rwa [Nat.add_right_comm, Nat.add_assoc])
      cases hm : pilotBase m with
      | some b => rw [insertFrom_succ_of_pilot hm, List.getElem?_cons_succ, hrest]
      | none => rw [insertFrom_succ_of_data hm, List.getElem?_cons_succ, hrest]

/-- How many of the `i` slots from `m` on hold data. -/
def dataSlotsFrom (m i : Nat) : Nat := (List.range' m i).countP (fun k => (pilotBase k).isNone)

theorem dataSlotsFrom_succ_of_pilot {base : Int} {m : Nat} (hm : pilotBase m = some base) (i : Nat) :
    dataSlotsFrom m (i + 1) = dataSlotsFrom (m + 1) i := by
  simp [dataSlotsFrom, List.range'_succ, hm]

theorem dataSlotsFrom_succ_of_data {m : Nat} (hm : pilotBase m = none) (i : Nat) :
    dataSlotsFrom m (i + 1) = dataSlotsFrom (m + 1) i + 1 := by
  simp [dataSlotsFrom, List.range'_succ, hm]

/-- A data slot takes the symbol whose number is the count of data slots before it. -/
theorem insertFrom_getElem?_of_data {sign : Int} {n m i : Nat} (d : List Cplx) (hi : i < n)
    (hslot : pilotBase (m + i) = none) :
    (insertFrom sign n m d)[i]? = some (d.getD (dataSlotsFrom m i) Cplx.zero) := by
  induction n generalizing m d i with
  | zero => omega
  | succ n ih =>
    cases i with
    | zero =>
      rw [insertFrom_succ_of_data (m := m) hslot, List.getElem?_cons_zero]
      cases d <;> rfl
    | succ i =>
      have hrest (d : List Cplx) := ih (m := m + 1) d (Nat.lt_of_succ_lt_succ hi)
        (by rwa [Nat.add_right_comm, Nat.add_assoc])
      cases hm : pilotBase m with
      | some b => rw [insertFrom_succ_of_pilot hm, List.getElem?_cons_succ, hrest, dataSlotsFrom_succ_of_pilot hm]
      | none =>
        rw [insertFrom_succ_of_data hm, List.getElem?_cons_succ, hrest, dataSlotsFrom_succ_of_data hm]
        cases d <;> rfl

/-- R109's slot of data symbol `n` is a data slot with `n` data slots before it. -/
theorem dataSlot_spec : ∀ n < 48,
    dataSlot n < 52 ∧ pilotBase (dataSlot n) = none ∧ dataSlotsFrom 0 (dataSlot n) = n := by decide

theorem insertPilots_dataSlot {d : List Cplx} (hd : d.length = 48) (pol : Polarity) {n : Nat} (hn : n < 48) :
    (insertPilots d pol)[dataSlot n]? = d[n]? := by
  obtain ⟨hlt, hslot, hcount⟩ := dataSlot_spec n hn
  rw [insertPilots, insertFrom_getElem?_of_data d hlt (by rwa [Nat.zero_add]), hcount,
    List.getD_eq_getElem d _ (by omega), List.getElem?_eq_getElem]

theorem insertPilots_pilotSlot (d : List Cplx) (pol : Polarity) {m : Nat} {base : Int} (hm : m < 52)
    (hslot : pilotBase m = some base) :
    (insertPilots d pol)[m]? = some (Cplx.ofRat (base * polaritySign pol : Int)) :=
  insertFrom_getElem?_of_pilot d hm (by rwa [Nat.zero_add])

/-- Settles O50. -/
theorem pilotPlacement : Obligations.PilotPlacement := by
  refine ⟨anyOperand 48, fun d pol hd => ⟨insertPilots_length d pol, fun n => insertPilots_dataSlot hd pol,
    fun m hm => ?plain, ?inverted⟩⟩
  case plain =>
    have hslot : ∀ m ∈ [5, 19, 32], m < 52 ∧ pilotBase m = some 1 := by decide
    rw [insertPilots_pilotSlot d pol (hslot m hm).1 (hslot m hm).2]
    cases pol <;> rfl
  case inverted =>
    rw [insertPilots_pilotSlot d pol (m := 46) (by decide) rfl]
    cases pol <;> rfl

/-! ### The polarity sequence -/

/-- `p[n]` is the polarity of the generator `n` steps after PLT.START (R110). -/
theorem polarityAt_eq_polarityOf (n : Nat) : polarityAt n = polarityOf (lfsrFeedback (lfsrNext^[n] 127)) := by
  rw [polarityAt, lfsr_getD (Nat.lt_succ_self n), polarityOf]

theorem polarityAt_period (n : Nat) : polarityAt (n + 127) = polarityAt n := by
  rw [polarityAt_eq_polarityOf, Function.iterate_add_apply, lfsrNext_iterate_127, ← polarityAt_eq_polarityOf]

/-- Every PLT.INS steps the generator, and the operand stays for the next one (R112). -/
theorem execAll_pltIns (t : Nat) {s : State} (hdin : s.din.length = 48) :
    ∃ u, execAll (List.replicate t .pltIns) s = .next u ∧ u.plt.lfsr = lfsrNext^[t] s.plt.lfsr ∧
      u.din.length = 48 := by
  induction t generalizing s with
  | zero => exact ⟨s, rfl, rfl, hdin⟩
  | succ t ih =>
    obtain ⟨u, hrun, hreg, hlen⟩ := ih (s := (s.setPlt ⟨lfsrNext s.plt.lfsr⟩).respond .ok _) hdin
    exact ⟨u, (execAll_cons_of_next (exec_pltIns hdin) _).trans hrun, hreg, hlen⟩

/-- PLT.INS answers as PLT.INSP does for the generator's polarity, which leaves the generator as it was (R113). -/
theorem exec_pltInsp_polarityOf {u : State} (hdin : u.din.length = 48) :
    ∃ v, exec .pltIns u = .next v ∧
      exec (.pltInsp (polarityOf (lfsrFeedback u.plt.lfsr))) u = .next { v with plt := u.plt } :=
  ⟨_, exec_pltIns hdin, exec_pltInsp hdin _⟩

/-- Settles O51: PLT.INS iterates `lfsrNext` from 127, as the document's sequence does. -/
theorem pilotPolaritySequence : Obligations.PilotPolaritySequence := by
  refine ⟨fun t s hdin => ?_, polarityAt_period⟩
  obtain ⟨u, hrun, hreg, hlen⟩ := execAll_pltIns t (s := (s.setPlt ⟨127⟩).respond .ok []) hdin
  obtain ⟨v, hins, hinsp⟩ := exec_pltInsp_polarityOf hlen
  rw [hreg] at hinsp
  exact ⟨u, v, (execAll_cons_of_next (exec_pltStart s) _).trans hrun, hins,
    (polarityAt_eq_polarityOf t).symm ▸ hinsp⟩

end Sys2Proof.Machine
end

section
/-! Proofs on IFT (46_ifft_64.md): the transform operation (R120), the number in each bin (R119), and the number that a
sample of the exact arithmetic stands for. -/

namespace Sys2Proof.Machine

theorem exec_iftXform {s : State} (hdin : s.din.length = 52) :
    exec .iftXform s = .next (s.respond .ok (cplxResult (inverseTransform (spectrum s.din)))) := by
  simp only [exec, execIftXform, (operand_eq_some 52 s s.din).mpr ⟨hdin, rfl⟩, answer]

theorem spectrum_getD (f : List Cplx) {k : Nat} (hk : k < 64) :
    (spectrum f).getD k Cplx.zero = spectrumBin f k := by
  simp [spectrum, hk]

theorem inverseTransform_getD (bins : List Cplx) {n : Nat} (hn : n < 64) :
    (inverseTransform bins).getD n Cplx.zero = inverseSample bins n := by
  simp [inverseTransform, hn]

/-- The bins hold the numbers that R119 puts there. -/
theorem toComplex_spectrumBin (ρ : Reading) (f : List Cplx) (k : Nat) :
    (spectrumBin f k).toComplex ρ = binValue ρ f k := by
  simp only [spectrumBin, binValue, apply_ite (Cplx.toComplex ρ), Cplx.toComplex_zero]

/-- The accumulation of a sample is a sum; the bins still to come are those from `i` on. -/
theorem toComplex_foldl_twiddle (ρ : Reading) (n : Nat) (bins : List Cplx) (i : Nat) (acc : Cplx) :
    (((bins.zipIdx i).foldl (fun acc t => acc.add (t.1.twiddle (t.2 * n))) acc).toComplex ρ)
      = acc.toComplex ρ + ∑ k ∈ Finset.range bins.length,
          ((bins.getD k Cplx.zero).twiddle ((i + k) * n)).toComplex ρ := by
  induction bins generalizing i acc with
  | nil => simp
  | cons z bins ih =>
    rw [List.zipIdx_cons, List.foldl_cons, ih, Cplx.toComplex_add, List.length_cons, Finset.sum_range_succ']
    simp only [List.getD_cons_succ, List.getD_cons_zero, Nat.add_zero, Nat.add_right_comm i 1, Nat.add_assoc i]
    ring

/-- A sample is the sum of R120 over however many bins there are. -/
theorem toComplex_inverseSample (ρ : Reading) (bins : List Cplx) (n : Nat) :
    (inverseSample bins n).toComplex ρ = (1 / 64) * ∑ k ∈ Finset.range bins.length,
      (bins.getD k Cplx.zero).toComplex ρ * Complex.exp (Complex.I * (2 * Real.pi * k * n / 64)) := by
  have hterm (k : Nat) : ((bins.getD k Cplx.zero).twiddle ((0 + k) * n)).toComplex ρ
      = (bins.getD k Cplx.zero).toComplex ρ * Complex.exp (Complex.I * (2 * Real.pi * k * n / 64)) := by
    rw [Cplx.toComplex_twiddle, mul_comm, Nat.zero_add]
    congr 2
    push_cast
    ring
  rw [inverseSample, Cplx.toComplex_scale, toComplex_foldl_twiddle, Cplx.toComplex_zero, zero_add,
    Finset.sum_congr rfl fun k _ => hterm k]
  norm_num

/-- Settles O52: the sum over the bins of the spectrum (`toComplex_inverseSample`), bin by bin the numbers of R119. -/
theorem iftXformIsInverseTransform : Obligations.IftXformIsInverseTransform := by
  refine ⟨anyOperand 52, fun s hdin => ⟨onlyWord_encode .iftXform, inverseTransform (spectrum s.din),
    inverseTransform_length _, exec_iftXform hdin, fun ρ n hn => ?_⟩⟩
  have hbin : ∀ k ∈ Finset.range 64, ((spectrum s.din).getD k Cplx.zero).toComplex ρ = binValue ρ s.din k :=
    fun k hk => by rw [spectrum_getD _ (Finset.mem_range.mp hk), toComplex_spectrumBin]
  rw [inverseTransform_getD _ hn, toComplex_inverseSample, spectrum_length]
  exact congrArg _ (Finset.sum_congr rfl fun k hk => by rw [hbin k hk])

end Sys2Proof.Machine
end

section
/-! Proofs on CPG (47_cyclic_prefix_generator.md): the operation (R127), the extension as a window of the symbol's
periodic repetition (R126), and the halved edges (R128). -/

namespace Sys2Proof.Machine

theorem encode_cpgExt (field : FieldType) :
    encode (.cpgExt field) = 0x8000 ||| field.toCode.setWidth 16 := by
  cases field <;> rfl

theorem exec_cpgExt {s : State} (hdin : s.din.length = 64) (field : FieldType) :
    exec (.cpgExt field) s = .next (s.respond .ok (cplxResult (windowEdges (extend s.din field)))) := by
  simp only [exec, execCpgExt, (operand_eq_some 64 s s.din).mpr ⟨hdin, rfl⟩, answer]

/-! ### The extension -/

/-- `l` reads the list `x` round and round, from position `k` on. -/
def ReadsCyclically (x : List Cplx) (k : Nat) (l : List Cplx) : Prop :=
  ∀ n < l.length, l[n]? = x[(k + n) % x.length]?

/-- What is put in front of the symbol is its own end. -/
theorem readsCyclically_drop (x : List Cplx) (k : Nat) : ReadsCyclically x k (x.drop k) := by
  intro n hn
  rw [List.length_drop] at hn
  rw [List.getElem?_drop, Nat.mod_eq_of_lt (by omega)]

/-- Where a reading has come to the end of the list, the list begins again. -/
theorem ReadsCyclically.append_wrap {x l p : List Cplx} {k : Nat} (hl : ReadsCyclically x k l)
    (hp : p <+: x) (hwrap : (k + l.length) % x.length = 0) : ReadsCyclically x k (l ++ p) := by
  intro n hn
  rcases Nat.lt_or_ge n l.length with hlt | hge
  · rw [List.getElem?_append_left hlt, hl n hlt]
  · obtain ⟨i, rfl⟩ := Nat.exists_eq_add_of_le hge
    have hi : i < p.length := by simpa using hn
    rw [List.getElem?_append_right hge, Nat.add_sub_cancel_left, ← Nat.add_assoc, Nat.add_mod, hwrap, Nat.zero_add,
      Nat.mod_mod, Nat.mod_eq_of_lt (hi.trans_le hp.length_le), List.getElem?_eq_getElem hi,
      List.getElem?_eq_getElem (hi.trans_le hp.length_le), hp.getElem hi]

/-- Every extension starts G samples before the end of the symbol and reads on (R126). Without a guard, for STF, that is
the symbol's own start. -/
theorem extend_readsCyclically {x : List Cplx} (hx : x.length = 64) (field : FieldType) :
    ReadsCyclically x ((64 - guardLength field) % 64) (extend x field) := by
  have hsample : x.take 1 <+: x := List.take_prefix 1 x
  cases field with
  | stf =>
    exact ((readsCyclically_drop x 0).append_wrap List.prefix_rfl (by simp [hx])).append_wrap
      (List.take_prefix 33 x) (by simp [hx])
  | ltf =>
    exact (((readsCyclically_drop x 32).append_wrap List.prefix_rfl (by simp [hx])).append_wrap
      List.prefix_rfl (by simp [hx])).append_wrap hsample (by simp [hx])
  | signal | data =>
    exact ((readsCyclically_drop x 48).append_wrap List.prefix_rfl (by simp [hx])).append_wrap
      hsample (by simp [hx])

theorem extend_length_eq {x : List Cplx} (hx : x.length = 64) (field : FieldType) :
    (extend x field).length = extendedLength field := by
  rw [extend_length x hx]
  cases field <;> rfl

/-- The one formula of R126. -/
theorem extend_getD {x : List Cplx} (hx : x.length = 64) {field : FieldType} {n : Nat}
    (hn : n < extendedLength field) :
    (extend x field).getD n Cplx.zero = x.getD ((n + 64 - guardLength field) % 64) Cplx.zero := by
  have hguard : guardLength field ≤ 64 := by cases field <;> decide
  have hindex : ((64 - guardLength field) % 64 + n) % 64 = (n + 64 - guardLength field) % 64 := by omega
  rw [List.getD_eq_getElem?_getD, extend_readsCyclically hx field n (by rwa [extend_length_eq hx]), hx, hindex,
    List.getD_eq_getElem?_getD]

/-! ### The window -/

/-- Of at least two samples, the window halves the first and the last and leaves the others (R128). -/
theorem windowEdges_getD {y : List Cplx} {n : Nat} (hy : 1 < y.length) (hn : n < y.length) :
    (windowEdges y).getD n Cplx.zero
      = if n = 0 ∨ n = y.length - 1 then (y.getD n Cplx.zero).scale (1 / 2) else y.getD n Cplx.zero := by
  have hends : y.length - 1 ≠ 0 := by omega
  rw [List.getD_eq_getElem _ _ (by rwa [windowEdges_length]), List.getD_eq_getElem _ _ hn]
  by_cases hfirst : n = 0
  · simp [windowEdges, hfirst, hends]
  · by_cases hlast : n = y.length - 1
    · simp [windowEdges, hlast, hends.symm]
    · simp [windowEdges, hfirst, hlast, Ne.symm hfirst, Ne.symm hlast]

/-- Settles O53: the formula of the extension (`extend_getD`) under the window (`windowEdges_getD`); on numbers,
halving is `Cplx.toComplex_scale`. -/
theorem cpgExtExtendsAndWindows : Obligations.CpgExtExtendsAndWindows := by
  refine ⟨anyOperand 64, fun field s hdin => ⟨encode_cpgExt field ▸ onlyWord_encode _,
    windowEdges (extend s.din field), ?length, exec_cpgExt hdin field, fun n hn => ?sample⟩⟩
  case length => rw [windowEdges_length, extend_length_eq hdin]
  case sample =>
    have hlen := extend_length_eq hdin field
    have hlong : 1 < extendedLength field := by cases field <;> decide
    have hdata := windowEdges_getD (n := n) (hlen ▸ hlong) (hlen ▸ hn)
    rw [hlen, extend_getD hdin hn] at hdata
    refine ⟨hdata, fun ρ => ?_⟩
    rw [hdata, apply_ite (Cplx.toComplex ρ), Cplx.toComplex_scale, ite_mul, one_mul]
    norm_num

end Sys2Proof.Machine
end

section
/-! Proofs on CRC: its three operations (48_crc32_table_driven.md R137 to R139), the table against the eight bit steps
(R135, R136), its runs (R140), and the residue of a message with its checksum (95_test_vectors.md V17). The one idea is
that the bit step is linear over xor, so that a byte's eight steps act on the low byte alone and shift out the rest. -/

namespace Sys2Proof.Machine

/-! ### The operations of CRC -/

theorem encode_crcByte (b : Byte) : encode (.crcByte b) = 0x9100 ||| b.setWidth 16 := by
  revert b; decide

theorem exec_crcInit (s : State) : exec .crcInit s = .next ((s.setCrc ⟨0xFFFFFFFF⟩).respond .ok []) := rfl

theorem exec_crcByte (b : Byte) (s : State) :
    exec (.crcByte b) s = .next ((s.setCrc ⟨crcUpdate s.crc.reg b⟩).respond .ok []) := rfl

theorem exec_crcFin (s : State) :
    exec .crcFin s = .next (s.respond .ok (byteResult (littleEndian (s.crc.reg ^^^ 0xFFFFFFFF)))) := rfl

/-- The four bytes at bit positions 0, 8, 16 and 24 make up the value (R139). -/
theorem littleEndian_value (v : BitVec 32) :
    (v.extractLsb' 0 8).toNat + 256 * (v.extractLsb' 8 8).toNat + 65536 * (v.extractLsb' 16 8).toNat
      + 16777216 * (v.extractLsb' 24 8).toNat = v.toNat := by
  have hv := v.isLt
  simp only [BitVec.extractLsb'_toNat, Nat.shiftRight_eq_div_pow]
  omega

/-- Settles O54. -/
theorem crcInitLoadsOnes : Obligations.CrcInitLoadsOnes := fun s =>
  ⟨onlyWord_encode .crcInit, exec_crcInit s⟩

/-- Settles O55. -/
theorem crcByteFoldsByte : Obligations.CrcByteFoldsByte := fun b s =>
  ⟨encode_crcByte b ▸ onlyWord_encode _, exec_crcByte b s⟩

/-- Settles O56. -/
theorem crcFinOutputsChecksum : Obligations.CrcFinOutputsChecksum := fun s =>
  ⟨onlyWord_encode .crcFin, _, _, _, _, littleEndian_value (s.crc.reg ^^^ 0xFFFFFFFF), exec_crcFin s⟩

/-! ### The table and the eight bit steps -/

theorem crcTable_eq_map_crcEntry : crcTable = (List.range 256).map crcEntry := by decide +kernel

theorem crcTable_getD {i : Nat} (hi : i < 256) : crcTable.getD i 0 = crcEntry i := by
  simp [crcTable_eq_map_crcEntry, hi]

/-- Settles O57. -/
theorem crcTableByEightSteps : Obligations.CrcTableByEightSteps := ⟨crcTable_length, fun _ => crcTable_getD⟩

theorem crcEntry_toNat (x : BitVec 32) : crcEntry x.toNat = crcShift^[8] x :=
  congrArg crcShift^[8] (BitVec.ofNat_toNat 32 x ▸ BitVec.setWidth_eq x)

theorem crcUpdateBitwise_eq (c : BitVec 32) (b : Byte) :
    crcUpdateBitwise c b = crcShift^[8] (c ^^^ b.setWidth 32) := rfl

/-- What a bit that leaves the register adds to it (R135). -/
def crcFeedback (out : Bit) : BitVec 32 := if out then 0xEDB88320 else 0

theorem crcFeedback_xor (a b : Bit) : crcFeedback (a ^^ b) = crcFeedback a ^^^ crcFeedback b := by
  revert a b; decide

theorem crcShift_eq (c : BitVec 32) : crcShift c = c >>> 1 ^^^ crcFeedback (c.getLsbD 0) := by
  unfold crcShift crcFeedback
  split <;> simp

theorem crcShift_xor (x y : BitVec 32) : crcShift (x ^^^ y) = crcShift x ^^^ crcShift y := by
  simp only [crcShift_eq, BitVec.getLsbD_xor, crcFeedback_xor, BitVec.ushiftRight_xor_distrib]
  ac_rfl

theorem crcShift_iterate_xor (n : Nat) (x y : BitVec 32) :
    crcShift^[n] (x ^^^ y) = crcShift^[n] x ^^^ crcShift^[n] y := by
  induction n generalizing x y with
  | zero => rfl
  | succ n ih => simp only [Function.iterate_succ_apply, crcShift_xor, ih]

/-- While 0s leave the register, the steps only shift. -/
theorem crcShift_iterate_of_low_zero {n : Nat} {x : BitVec 32} (hlow : ∀ i < n, x.getLsbD i = false) :
    crcShift^[n] x = x >>> n := by
  induction n with
  | zero => rfl
  | succ n ih =>
    have hbit : (x >>> n).getLsbD 0 = false := by simpa using hlow n n.lt_succ_self
    rw [Function.iterate_succ_apply', ih fun i hi => hlow i (by omega), crcShift_eq, hbit, BitVec.shiftRight_add]
    exact BitVec.xor_zero

/-- The low byte of a register (R136). -/
def lowByte (v : BitVec 32) : Byte := v.setWidth 8

theorem and_0xFF_eq_lowByte (v : BitVec 32) : v &&& 0xFF = (lowByte v).setWidth 32 := by
  apply BitVec.eq_of_toNat_eq
  have hmod : v.toNat &&& 255 = v.toNat % 256 := Nat.and_two_pow_sub_one_eq_mod v.toNat 8
  simp [lowByte, hmod]
  omega

theorem lowByte_xor_rest (v : BitVec 32) : (lowByte v).setWidth 32 ^^^ v >>> 8 <<< 8 = v := by
  apply BitVec.eq_of_getLsbD_eq
  intro i hi
  by_cases hlow : i < 8
  · simp [lowByte, hi, hlow]
  · simp [lowByte, hi, hlow, Nat.add_sub_cancel' (Nat.le_of_not_lt hlow)]

theorem shiftRight_shiftLeft_shiftRight (v : BitVec 32) : v >>> 8 <<< 8 >>> 8 = v >>> 8 := by
  apply BitVec.eq_of_getLsbD_eq
  intro i hi
  by_cases hhigh : 8 + i < 32
  · simp [hhigh]
  · simp [hhigh, BitVec.getLsbD_of_ge v (8 + i) (Nat.le_of_not_lt hhigh)]

/-- Eight steps work the low byte off and shift the rest down to it. -/
theorem crcShift_iterate_eight (v : BitVec 32) :
    crcShift^[8] v = crcShift^[8] ((lowByte v).setWidth 32) ^^^ v >>> 8 := by
  have hlow : ∀ i < 8, (v >>> 8 <<< 8).getLsbD i = false := fun i hi => by simp [hi]
  have hrest : crcShift^[8] (v >>> 8 <<< 8) = v >>> 8 := by
    rw [crcShift_iterate_of_low_zero hlow, shiftRight_shiftLeft_shiftRight]
  conv_lhs => rw [← lowByte_xor_rest v, crcShift_iterate_xor, hrest]

/-- Settles O58: the low byte's eight steps are the table's entry, and the byte folded in has no bits above it. -/
theorem crcTableEqualsBitwise : Obligations.CrcTableEqualsBitwise := by
  intro c b
  have hrest : (c ^^^ b.setWidth 32) >>> 8 = c >>> 8 := by
    have hb : b.setWidth 32 >>> 8 = 0#32 := by revert b; decide
    rw [BitVec.ushiftRight_xor_distrib, hb, BitVec.xor_zero]
  have hindex : ((c ^^^ b.setWidth 32) &&& 0xFF).toNat < 256 := by
    rw [and_0xFF_eq_lowByte, BitVec.toNat_setWidth_of_le (by decide)]
    exact BitVec.isLt _
  rw [crcUpdate, crcTable_getD hindex, crcEntry_toNat, and_0xFF_eq_lowByte, crcUpdateBitwise_eq,
    crcShift_iterate_eight (c ^^^ b.setWidth 32), hrest]

/-! ### Runs of CRC -/

theorem execAll_crcByte (m : List Byte) (s : State) :
    ∃ t, execAll (m.map .crcByte) s = .next t ∧ t.crc.reg = m.foldl crcUpdateBitwise s.crc.reg ∧
      t.outbox = s.outbox ++ m.map (fun _ => ⟨.ok, []⟩) := by
  induction m generalizing s with
  | nil => exact ⟨s, rfl, rfl, by simp⟩
  | cons b m ih =>
    obtain ⟨t, hrun, hreg, hout⟩ := ih _
    refine ⟨t, (execAll_cons_of_next (exec_crcByte b s) _).trans hrun, ?_, by simp [hout]⟩
    simpa [crcTableEqualsBitwise s.crc.reg b] using hreg

theorem execAll_crcInit_crcByte (m : List Byte) (s : State) :
    ∃ t, execAll (.crcInit :: m.map .crcByte) s = .next t ∧ t.crc.reg = m.foldl crcUpdateBitwise 0xFFFFFFFF ∧
      t.outbox = s.outbox ++ ⟨.ok, []⟩ :: m.map (fun _ => ⟨.ok, []⟩) := by
  obtain ⟨t, hrun, hreg, hout⟩ := execAll_crcByte m ((s.setCrc ⟨0xFFFFFFFF⟩).respond .ok [])
  exact ⟨t, (execAll_cons_of_next (exec_crcInit s) _).trans hrun, hreg, by simp [hout]⟩

theorem extractLsb'_eight (v : BitVec 32) (k : Nat) : v.extractLsb' k 8 = lowByte (v >>> k) := by
  apply BitVec.eq_of_toNat_eq
  simp [lowByte]

theorem littleEndian_eq_lowByte (v : BitVec 32) :
    littleEndian v = [lowByte v, lowByte (v >>> 8), lowByte (v >>> 16), lowByte (v >>> 24)] := by
  simp only [littleEndian, extractLsb'_eight, BitVec.ushiftRight_zero]

theorem crc32_eq_littleEndian (m : List Byte) :
    crc32 m = littleEndian (m.foldl crcUpdateBitwise 0xFFFFFFFF ^^^ 0xFFFFFFFF) :=
  (littleEndian_eq_lowByte _).symm

/-- Settles O59: the bytes fold into the register (`execAll_crcByte`), whose complement CRC.FIN answers. -/
theorem crc32RunIsSequenceFunction : Obligations.Crc32RunIsSequenceFunction := by
  intro m s
  obtain ⟨t, hrun, hreg, hout⟩ := execAll_crcInit_crcByte m s
  refine ⟨t.respond .ok ((crc32 m).map .byte), ?_, by simp [hout]⟩
  rw [expandCrc32, execAll_append_of_next hrun, execAll_cons_of_next (exec_crcFin t), hreg, ← crc32_eq_littleEndian]
  rfl

/-! ### The residue -/

/-- Folding the low byte of a value in leaves the rest of the value to be folded in, a byte further down. -/
theorem crcUpdateBitwise_lowByte_xor (c v : BitVec 32) :
    crcUpdateBitwise c (lowByte v) ^^^ v >>> 8 = crcShift^[8] (c ^^^ v) := by
  rw [crcUpdateBitwise_eq, crcShift_iterate_xor, crcShift_iterate_xor, crcShift_iterate_eight v, BitVec.xor_assoc]

/-- Folding four bytes in is taking the register xored with their value through 32 steps. -/
theorem foldl_crcUpdateBitwise_littleEndian (c v : BitVec 32) :
    (littleEndian v).foldl crcUpdateBitwise c = crcShift^[32] (c ^^^ v) := by
  have hgone : v >>> 24 >>> 8 = 0 := by
    rw [← BitVec.shiftRight_add]
    exact BitVec.ushiftRight_eq_zero (Nat.le_refl 32)
  calc (littleEndian v).foldl crcUpdateBitwise c
      = crcUpdateBitwise (crcUpdateBitwise (crcUpdateBitwise (crcUpdateBitwise c (lowByte v)) (lowByte (v >>> 8)))
          (lowByte (v >>> 16))) (lowByte (v >>> 24)) ^^^ v >>> 24 >>> 8 := by
        rw [littleEndian_eq_lowByte, hgone]
        exact BitVec.xor_zero.symm
    _ = crcShift^[8] (crcShift^[8] (crcShift^[8] (crcShift^[8] (c ^^^ v)))) := by
        rw [crcUpdateBitwise_lowByte_xor, show v >>> 24 = v >>> 16 >>> 8 from BitVec.shiftRight_add v 16 8,
          crcUpdateBitwise_lowByte_xor, show v >>> 16 = v >>> 8 >>> 8 from BitVec.shiftRight_add v 8 8,
          crcUpdateBitwise_lowByte_xor, crcUpdateBitwise_lowByte_xor]
    _ = crcShift^[32] (c ^^^ v) := rfl

/-- The register that 32 steps make of all ones (V17). -/
theorem crcShift_iterate_ones : crcShift^[32] 0xFFFFFFFF = 0xDEBB20E3 := by decide +kernel

/-- Settles O60: the checksum is the register's complement, so that after its bytes the register is that of 32 steps
from all ones, whatever the message. -/
theorem crcResidueIsConstant : Obligations.CrcResidueIsConstant := by
  intro m s
  obtain ⟨t, hrun, hreg, -⟩ := execAll_crcInit_crcByte (m ++ crc32 m) s
  refine ⟨t, hrun, ?_⟩
  rw [hreg, List.foldl_append, crc32_eq_littleEndian, foldl_crcUpdateBitwise_littleEndian, ← BitVec.xor_assoc,
    BitVec.xor_self, BitVec.zero_xor]
  exact crcShift_iterate_ones

end Sys2Proof.Machine
end

section
/-! Proofs on statuses and exceptions: which operations raise, and when (60_exceptions.md R162, R164), what a raising
operation writes (R165), and what it does when it is issued again (R166). -/

namespace Sys2Proof.Machine

/-! ### The operations that raise -/

/-- Operation `i` raises `st` in state `s`, having written `q`: the five operations of R162 and R164. -/
inductive Raises : Instr → State → Status → State → Prop where
  | punStart (s : State) : Raises (.punStart none) s .unsupportedRate s
  | ilvCfg (m : Modulation) (s : State) (hfill : s.ilv.fill ≠ 0) : Raises (.ilvCfg m) s .malformedBitSequence s
  | ilvEnd (s : State) (hfill : s.ilv.fill ≠ 0) :
    Raises .ilvEnd s .malformedBitSequence (s.setIlv { s.ilv with fill := 0 })
  | mapCfg (m : Modulation) (s : State) (hfill : s.map.fill ≠ 0) : Raises (.mapCfg m) s .malformedBitSequence s
  | mapEnd (s : State) (hfill : s.map.fill ≠ 0) :
    Raises .mapEnd s .malformedBitSequence (s.setMap { s.map with fill := 0 })

theorem exec_of_raises {i : Instr} {s q : State} {st : Status} (h : Raises i s st q) :
    exec i s = .next (q.raise st) := by
  cases h with
  | punStart => exact exec_punStart_none s
  | ilvCfg m _ hfill => exact exec_ilvCfg_of_fill_ne_zero m hfill
  | ilvEnd _ hfill => exact exec_ilvEnd_of_fill_ne_zero hfill
  | mapCfg m _ hfill => exact exec_mapCfg_of_fill_ne_zero m hfill
  | mapEnd _ hfill => exact exec_mapEnd_of_fill_ne_zero hfill

theorem Raises.outbox_eq {i : Instr} {s q : State} {st : Status} (h : Raises i s st q) : q.outbox = s.outbox := by
  cases h <;> rfl

/-- Operation `i` in state `s` raises nothing. -/
def NotRaising (i : Instr) (s : State) : Prop := ∀ st q, ¬ Raises i s st q

/-- An operation that completes without raising answers OK. -/
theorem outbox_of_notRaising {i : Instr} {s t : State} (hno : NotRaising i s) (h : exec i s = .next t) :
    ∃ d, t.outbox = s.outbox ++ [⟨.ok, d⟩] := by
  cases i with
  | scrSeed | scrBit | scrGen | encClr | encBit | punBit | pltStart | crcInit | crcByte | crcFin =>
    obtain rfl := (answer_eq_next _ _ _).mp h
    exact ⟨_, rfl⟩
  | punStart rate =>
    cases rate with
    | none => exact absurd (.punStart s) (hno _ _)
    | some r =>
      obtain rfl := (answer_eq_next _ _ _).mp h
      exact ⟨_, rfl⟩
  | ilvCfg m =>
    have hfill : s.ilv.fill = 0 := not_not.mp fun hne => hno _ _ (.ilvCfg m s hne)
    cases (exec_ilvCfg_of_fill_eq_zero m hfill).symm.trans h
    exact ⟨_, rfl⟩
  | ilvEnd =>
    have hfill : s.ilv.fill = 0 := not_not.mp fun hne => hno _ _ (.ilvEnd s hne)
    cases (exec_ilvEnd_of_fill_eq_zero hfill).symm.trans h
    exact ⟨_, rfl⟩
  | mapCfg m =>
    have hfill : s.map.fill = 0 := not_not.mp fun hne => hno _ _ (.mapCfg m s hne)
    cases (exec_mapCfg_of_fill_eq_zero m hfill).symm.trans h
    exact ⟨_, rfl⟩
  | mapEnd =>
    have hfill : s.map.fill = 0 := not_not.mp fun hne => hno _ _ (.mapEnd s hne)
    cases (exec_mapEnd_of_fill_eq_zero hfill).symm.trans h
    exact ⟨_, rfl⟩
  | ilvBit | mapBit =>
    simp only [exec, execIlvBit, execMapBit] at h
    split at h <;> obtain rfl := (answer_eq_next _ _ _).mp h <;> exact ⟨_, rfl⟩
  | pltIns | pltInsp | iftXform | cpgExt =>
    simp only [exec, execPltIns, execPltInsp, execIftXform, execCpgExt] at h
    split at h
    next => cases h
    next =>
      obtain rfl := (answer_eq_next _ _ _).mp h
      exact ⟨_, rfl⟩

/-- How an operation that completes ends: it raises, or it answers OK. -/
theorem exec_ending {i : Instr} {s t : State} (h : exec i s = .next t) :
    (∃ st q, Raises i s st q ∧ t = q.raise st) ∨
      (NotRaising i s ∧ ∃ d, t.outbox = s.outbox ++ [⟨.ok, d⟩]) := by
  by_cases hraise : ∃ st q, Raises i s st q
  · obtain ⟨st, q, hq⟩ := hraise
    cases (exec_of_raises hq).symm.trans h
    exact .inl ⟨st, q, hq, rfl⟩
  · have hno : NotRaising i s := fun st q hq => hraise ⟨st, q, hq⟩
    exact .inr ⟨hno, outbox_of_notRaising hno h⟩

/-- Settles O18, by how the operation ends (`exec_ending`). -/
theorem statusesByOperation : Obligations.StatusesByOperation := by
  intro i s t h
  obtain ⟨st, q, hq, rfl⟩ | ⟨hno, d, hout⟩ := exec_ending h
  · refine ⟨st, [], by simp [hq.outbox_eq], ?_⟩
    cases hq with
    | punStart => simp
    | ilvCfg m _ hfill | ilvEnd _ hfill | mapCfg m _ hfill | mapEnd _ hfill => simpa using hfill
  · refine ⟨.ok, d, hout, .inl rfl, ?rate, ?partialBlock⟩
    case rate =>
      refine iff_of_false nofun ?_
      rintro rfl
      exact hno _ _ (.punStart s)
    case partialBlock =>
      refine iff_of_false nofun ?_
      rintro (⟨rfl | ⟨m, rfl⟩, hfill⟩ | ⟨rfl | ⟨m, rfl⟩, hfill⟩)
      · exact hno _ _ (.ilvEnd s hfill)
      · exact hno _ _ (.ilvCfg m s hfill)
      · exact hno _ _ (.mapEnd s hfill)
      · exact hno _ _ (.mapCfg m s hfill)

/-! ### What a raising operation leaves -/

/-- An operation that answers a status other than OK has raised it, with the empty result (R165). -/
theorem raises_of_status_ne_ok {i : Instr} {s t : State} {st : Status} {d : List Datum} (h : exec i s = .next t)
    (hout : t.outbox = s.outbox ++ [⟨st, d⟩]) (hst : st ≠ .ok) :
    d = [] ∧ ∃ q, Raises i s st q ∧ t = q.raise st := by
  obtain ⟨st', q, hq, rfl⟩ | ⟨-, d', hout'⟩ := exec_ending h
  · obtain ⟨rfl, rfl⟩ : st' = st ∧ [] = d := by simpa [hq.outbox_eq] using hout
    exact ⟨rfl, q, hq, rfl⟩
  · obtain ⟨rfl, -⟩ : st = .ok ∧ d = d' := by simpa [hout] using hout'
    exact absurd rfl hst

/-- Settles O19, for each operation that raises. -/
theorem raisingWritesNothingElse : Obligations.RaisingWritesNothingElse := by
  intro i s t st d h hout hst
  obtain ⟨rfl, q, hq, rfl⟩ := raises_of_status_ne_ok h hout hst
  refine ⟨rfl, ?_⟩
  cases hq with
  | punStart | ilvCfg | mapCfg => exact ⟨nofun, nofun, fun _ _ => rfl⟩
  | ilvEnd => exact ⟨fun _ => rfl, nofun, fun hne => absurd rfl hne⟩
  | mapEnd => exact ⟨nofun, fun _ => rfl, fun _ hne => absurd rfl hne⟩

/-- A response is no register. -/
theorem State.respond_sameRegisters (st : Status) (d : List Datum) (s : State) :
    (s.respond st d).SameRegisters s := ⟨rfl, rfl, rfl, rfl, rfl, rfl, rfl⟩

/-- Settles O20: an operation that has written nothing raises again, an END finds the fill 0. -/
theorem errorRepeatsUnlessEnd : Obligations.ErrorRepeatsUnlessEnd := by
  intro i s t st h hst hout
  obtain ⟨-, q, hq, rfl⟩ := raises_of_status_ne_ok h hout hst
  cases hq with
  | punStart => exact ⟨_, exec_of_raises (.punStart _), State.respond_sameRegisters _ _ _, rfl⟩
  | ilvCfg m _ hfill => exact ⟨_, exec_of_raises (.ilvCfg m _ hfill), State.respond_sameRegisters _ _ _, rfl⟩
  | mapCfg m _ hfill => exact ⟨_, exec_of_raises (.mapCfg m _ hfill), State.respond_sameRegisters _ _ _, rfl⟩
  | ilvEnd => exact ⟨_, exec_ilvEnd_of_fill_eq_zero rfl, State.respond_sameRegisters _ _ _, rfl⟩
  | mapEnd => exact ⟨_, exec_mapEnd_of_fill_eq_zero rfl, State.respond_sameRegisters _ _ _, rfl⟩

end Sys2Proof.Machine
end

section
/-! Proofs on reset and on the port at rest: what reset leaves in the registers (70_reset_and_hazards.md R177), a reset
input (R176, R178), a step with nothing waiting (60_exceptions.md R174), and a step on inputs that can all be formed
(R166, 70_reset_and_hazards.md R190). -/

namespace Sys2Proof.Machine

theorem step_idle {s : State} (hin : s.inbox = []) : step s = .next s := by
  simp [step, serve, hin]

theorem step_reset {s : State} {p : Option Request} {rest : List Input} (hin : s.inbox = .reset p :: rest) :
    step s = .next (s.resetBy rest) := by
  simp [step, serve, hin]

/-- Settles O3. -/
theorem idleStepHoldsState : Obligations.IdleStepHoldsState := fun _ => step_idle

theorem State.resetBy_sameRegisters (rest : List Input) (s : State) :
    (s.resetBy rest).SameRegisters State.reset := ⟨rfl, rfl, rfl, rfl, rfl, rfl, rfl⟩

/-- Settles O2. -/
theorem resetInputRestoresRegisters : Obligations.ResetInputRestoresRegisters := fun s _ rest hin =>
  ⟨s.resetBy rest, step_reset hin, s.resetBy_sameRegisters rest, rfl, rfl⟩

/-- Settles O14: one step takes the first of the formed inputs (`step_serves_formed`) and leaves the others. -/
theorem formedRequestsAreAnswered : Obligations.FormedRequestsAreAnswered := by
  intro s hformed
  cases hin : s.inbox with
  | nil => exact ⟨s, step_idle hin, hformed⟩
  | cons x rest =>
    obtain ⟨hx, hrest⟩ : x.formed = true ∧ rest.all Input.formed = true := by
      simpa [State.PortFormed, hin] using hformed
    obtain ⟨m, -, hstep, hinbox, -⟩ := step_serves_formed hin hx
    exact ⟨m, hstep, by rwa [State.PortFormed, hinbox]⟩

/-! ### The reset values -/

/-- The start operations but SCR.SEED write what the registers hold after reset. -/
theorem start_keeps_reset :
    ∀ i ∈ [Instr.encClr, .punStart (some .half), .ilvCfg .bpsk, .mapCfg .bpsk, .pltStart, .crcInit],
      ∃ t, exec i State.reset = .next t ∧ t.SameRegisters State.reset := by
  simp only [List.forall_mem_cons, List.not_mem_nil, false_implies, implies_true, and_true]
  refine ⟨?encClr, ?punStart, ?ilvCfg, ?mapCfg, ?pltStart, ?crcInit⟩
  case encClr => exact ⟨_, exec_encClr _, State.respond_sameRegisters _ _ _⟩
  case punStart => exact ⟨_, exec_punStart_some .half _, State.respond_sameRegisters _ _ _⟩
  case ilvCfg => exact ⟨_, exec_ilvCfg_of_fill_eq_zero .bpsk rfl, State.respond_sameRegisters _ _ _⟩
  case mapCfg => exact ⟨_, exec_mapCfg_of_fill_eq_zero .bpsk rfl, State.respond_sameRegisters _ _ _⟩
  case pltStart => exact ⟨_, exec_pltStart _, State.respond_sameRegisters _ _ _⟩
  case crcInit => exact ⟨_, exec_crcInit _, State.respond_sameRegisters _ _ _⟩

/-- Settles O1. -/
theorem resetRegisterValues : Obligations.ResetRegisterValues :=
  ⟨rfl, rfl, rfl, rfl, rfl, rfl, fun _ => Vector.getElem_replicate, rfl, rfl, fun _ => Vector.getElem_replicate,
    rfl, rfl, start_keeps_reset⟩

end Sys2Proof.Machine
end
